-- ==== Sys2Proof/Word.lean ====
section
/-! DEFINITION. The word types of the core (00_scope.md R8, 10_state.md R21, R25, 30_encoding.md R90).
Every quantity is unsigned; the core has no signed operation. -/

namespace Sys2Proof

/-- An 8-bit quantity: a register, a byte of RAM, an immediate `byte`. -/
abbrev Byte := BitVec 8

/-- A 16-bit quantity: `pc`, `I`, a return address. -/
abbrev Word := BitVec 16

/-- A 16-bit instruction word, `msb : lsb` (30_encoding.md R91). -/
abbrev Opcode := BitVec 16

/-- A 4-bit field: a `nibble`, a key index, a sub-key. -/
abbrev Nibble := BitVec 4

/-- A register index, always in 0 to 15 (10_state.md R22). -/
abbrev RegIx := BitVec 4

/-- A 12-bit address immediate (30_encoding.md R91). -/
abbrev Addr12 := BitVec 12

end Sys2Proof
end

