-- ==== Sys2Proof/Syntax.lean ====
section
/-! DEFINITION. The instructions: one constructor for each of the 43 rows of spec/opcode_table.json
(30_encoding.md R96), in the table's order, with the operand fields the row names (R91). Names follow the
spec's mnemonics; `ret` is Return, `orReg`, `andReg`, `xorReg` are Or, And, Xor. -/

namespace Sys2Proof

inductive Instr where
  /-- ClearScreen, `0-E0`. -/
  | clearScreen
  /-- Return, `0-EE`. -/
  | ret
  /-- ScrollRight, `0-FB`. -/
  | scrollRight
  /-- ScrollLeft, `0-FC`. -/
  | scrollLeft
  /-- HighResolutionOff, `0-FE`. -/
  | highResolutionOff
  /-- HighResolutionOn, `0-FF`. -/
  | highResolutionOn
  /-- ScrollDown, `0-Cn`. -/
  | scrollDown (nibble : Nibble)
  /-- Jump, `1aaa`. -/
  | jump (addr : Addr12)
  /-- Call, `2aaa`. -/
  | call (addr : Addr12)
  /-- SkipIfEqualImm, `3xkk`. -/
  | skipIfEqualImm (x : RegIx) (byte : Byte)
  /-- SkipIfUnequalImm, `4xkk`. -/
  | skipIfUnequalImm (x : RegIx) (byte : Byte)
  /-- SkipIfEqualReg, `5xy-`. -/
  | skipIfEqualReg (x y : RegIx)
  /-- LoadImm, `6xkk`. -/
  | loadImm (x : RegIx) (byte : Byte)
  /-- AddInPlace, `7xkk`. -/
  | addInPlace (x : RegIx) (byte : Byte)
  /-- LoadReg, `8xy0`. -/
  | loadReg (x y : RegIx)
  /-- Or, `8xy1`. -/
  | orReg (x y : RegIx)
  /-- And, `8xy2`. -/
  | andReg (x y : RegIx)
  /-- Xor, `8xy3`. -/
  | xorReg (x y : RegIx)
  /-- Add, `8xy4`. -/
  | add (x y : RegIx)
  /-- Sub, `8xy5`. -/
  | sub (x y : RegIx)
  /-- ShiftRight, `8x-6`. -/
  | shiftRight (x : RegIx)
  /-- SubReverse, `8xy7`. -/
  | subReverse (x y : RegIx)
  /-- ShiftLeft, `8x-E`. -/
  | shiftLeft (x : RegIx)
  /-- SkipIfUnequalReg, `9xy-`. -/
  | skipIfUnequalReg (x y : RegIx)
  /-- SetPointer, `Aaaa`. -/
  | setPointer (addr : Addr12)
  /-- JumpPlus, `Baaa`. Its register index `x` is `addr[11:8]` (R97), so it is no field of its own. -/
  | jumpPlus (addr : Addr12)
  /-- Random, `Cxkk`. -/
  | random (x : RegIx) (byte : Byte)
  /-- DrawLarge, `Dxy0`. -/
  | drawLarge (x y : RegIx)
  /-- Draw, `Dxyn` with n = 1 to 15. -/
  | draw (x y : RegIx) (nibble : Nibble)
  /-- SkipIfKey, `Ex9E`. -/
  | skipIfKey (x : RegIx)
  /-- SkipIfNotKey, `ExA1`. -/
  | skipIfNotKey (x : RegIx)
  /-- GetTimer, `Fx07`. -/
  | getTimer (x : RegIx)
  /-- KeyBlock, `Fx0A`. -/
  | keyBlock (x : RegIx)
  /-- SetTimer, `Fx15`. -/
  | setTimer (x : RegIx)
  /-- SetSound, `Fx18`. -/
  | setSound (x : RegIx)
  /-- AddPointer, `Fx1E`. -/
  | addPointer (x : RegIx)
  /-- GetDigit, `Fx29`. -/
  | getDigit (x : RegIx)
  /-- StoreDecimal, `Fx33`. -/
  | storeDecimal (x : RegIx)
  /-- StoreRegisters, `Fx55`. -/
  | storeRegisters (x : RegIx)
  /-- LoadRegisters, `Fx65`. -/
  | loadRegisters (x : RegIx)
  /-- StoreRegistersRPL, `Fx75`. -/
  | storeRegistersRPL (x : RegIx)
  /-- LoadRegistersRPL, `Fx85`. -/
  | loadRegistersRPL (x : RegIx)
  /-- Invalid, everything else; all fields are ignored (R98, R128). -/
  | invalid
  deriving DecidableEq, Repr

end Sys2Proof
end

