-- ==== Sys2Proof/WellFormed.lean ====
section
/-! DEFINITION. Which terms of Instr are instructions. Field widths already bound every register index, byte
and address (10_state.md R22); the one check left is the row count of Draw, 1 to 15, because nibble 0 selects
DrawLarge (30_encoding.md R96 rows 28 and 29, 45_display.md R236). -/

namespace Sys2Proof

/-- The row count of Draw is not 0. -/
abbrev Instr.drawHasRows : Instr → Prop
  | .draw _ _ n => n ≠ 0#4
  | _ => True

/-- An instruction some opcode decodes to. -/
abbrev Instr.WellFormed (i : Instr) : Prop := i.drawHasRows

end Sys2Proof
end

