-- ==== Sys2Proof/Decode.lean ====
section
/-! DEFINITION. The field positions (30_encoding.md R91), the decoder by the procedure of R95, the opcode map
of R96 as a table with the selection rule of R102, and the encoder that emits the canonical opcode (R97, R105). -/

namespace Sys2Proof

/-! ## Fields (R91) -/

/-- Opcode bits 15:12, the primary opcode. -/
def Opcode.group (w : Opcode) : Nibble := w.extractLsb' 12 4

/-- Opcode bits 11:8, a register index. -/
def Opcode.x (w : Opcode) : RegIx := w.extractLsb' 8 4

/-- Opcode bits 7:4, a register index. -/
def Opcode.y (w : Opcode) : RegIx := w.extractLsb' 4 4

/-- Opcode bits 3:0. -/
def Opcode.nibble (w : Opcode) : Nibble := w.extractLsb' 0 4

/-- Opcode bits 7:0, the second byte. -/
def Opcode.byte (w : Opcode) : Byte := w.extractLsb' 0 8

/-- Opcode bits 11:0. -/
def Opcode.addr (w : Opcode) : Addr12 := w.extractLsb' 0 12

/-- The first byte of the opcode, bits 15:8 (20_memory.md R61). -/
def Opcode.msb (w : Opcode) : Byte := w.extractLsb' 8 8

/-- The second byte of the opcode, bits 7:0 (20_memory.md R61). -/
def Opcode.lsb (w : Opcode) : Byte := w.extractLsb' 0 8

/-- `opcode = msb : lsb`, big-endian (20_memory.md R61, 40_step_and_dispatch.md R121). -/
def Opcode.ofBytes (msb lsb : Byte) : Opcode := msb ++ lsb

/-! ## The decoder (R95) -/

/-- Group 0x0: on `byte`; when none of the six values matches, `y = 0xC` is ScrollDown. `x` is ignored. -/
def decodeGroup0 (w : Opcode) : Instr :=
  match w.byte with
  | 0xE0#8 => .clearScreen
  | 0xEE#8 => .ret
  | 0xFB#8 => .scrollRight
  | 0xFC#8 => .scrollLeft
  | 0xFE#8 => .highResolutionOff
  | 0xFF#8 => .highResolutionOn
  | _ => if w.y = 0xC#4 then .scrollDown w.nibble else .invalid

/-- Group 0x8: on `nibble`. The shifts ignore `y`. -/
def decodeGroup8 (w : Opcode) : Instr :=
  match w.nibble with
  | 0x0#4 => .loadReg w.x w.y
  | 0x1#4 => .orReg w.x w.y
  | 0x2#4 => .andReg w.x w.y
  | 0x3#4 => .xorReg w.x w.y
  | 0x4#4 => .add w.x w.y
  | 0x5#4 => .sub w.x w.y
  | 0x6#4 => .shiftRight w.x
  | 0x7#4 => .subReverse w.x w.y
  | 0xE#4 => .shiftLeft w.x
  | _ => .invalid

/-- Group 0xD: `nibble` 0 is DrawLarge, any other value is Draw with that row count. -/
def decodeGroupD (w : Opcode) : Instr :=
  if w.nibble = 0x0#4 then .drawLarge w.x w.y else .draw w.x w.y w.nibble

/-- Group 0xE: on `byte`. -/
def decodeGroupE (w : Opcode) : Instr :=
  match w.byte with
  | 0x9E#8 => .skipIfKey w.x
  | 0xA1#8 => .skipIfNotKey w.x
  | _ => .invalid

/-- Group 0xF: on `byte`. -/
def decodeGroupF (w : Opcode) : Instr :=
  match w.byte with
  | 0x07#8 => .getTimer w.x
  | 0x0A#8 => .keyBlock w.x
  | 0x15#8 => .setTimer w.x
  | 0x18#8 => .setSound w.x
  | 0x1E#8 => .addPointer w.x
  | 0x29#8 => .getDigit w.x
  | 0x33#8 => .storeDecimal w.x
  | 0x55#8 => .storeRegisters w.x
  | 0x65#8 => .loadRegisters w.x
  | 0x75#8 => .storeRegistersRPL w.x
  | 0x85#8 => .loadRegistersRPL w.x
  | _ => .invalid

/-- The decoder: total, and a function of the opcode bits alone (R95). The last arm is group 0xF, the one
value of the four bits that is left. -/
def decode (w : Opcode) : Instr :=
  match w.group with
  | 0x0#4 => decodeGroup0 w
  | 0x1#4 => .jump w.addr
  | 0x2#4 => .call w.addr
  | 0x3#4 => .skipIfEqualImm w.x w.byte
  | 0x4#4 => .skipIfUnequalImm w.x w.byte
  | 0x5#4 => .skipIfEqualReg w.x w.y
  | 0x6#4 => .loadImm w.x w.byte
  | 0x7#4 => .addInPlace w.x w.byte
  | 0x8#4 => decodeGroup8 w
  | 0x9#4 => .skipIfUnequalReg w.x w.y
  | 0xA#4 => .setPointer w.addr
  | 0xB#4 => .jumpPlus w.addr
  | 0xC#4 => .random w.x w.byte
  | 0xD#4 => decodeGroupD w
  | 0xE#4 => decodeGroupE w
  | _ => decodeGroupF w

/-- Why a list of bytes holds no instruction. Every two bytes hold one (R95). -/
inductive DecodeError where
  /-- Fewer than two bytes are left: every instruction is exactly two bytes (R90). -/
  | truncated
  deriving DecidableEq, Repr

/-- Decoding of any bytes: the instruction of the first two, and the rest (R61, R90, R101). -/
def decodeBytes : List Byte → Except DecodeError (Instr × List Byte)
  | msb :: lsb :: rest => .ok (decode (Opcode.ofBytes msb lsb), rest)
  | _ => .error .truncated

/-! ## The encoder (R96, R105) -/

/-- An opcode of four nibbles, most significant first. -/
def packNibbles (a b c d : Nibble) : Opcode := a ++ b ++ c ++ d

/-- An opcode of a group, a register index and a byte. -/
def packByte (g : Nibble) (x : RegIx) (k : Byte) : Opcode := g ++ x ++ k

/-- An opcode of a group and an address. -/
def packAddr (g : Nibble) (a : Addr12) : Opcode := g ++ a

/-- The canonical opcode of an instruction: every ignored bit is 0 (R97, R105). Invalid has no opcode of its
own (R106); the encoder emits 0x0000, which R98 names as one (log 11). -/
def encode : Instr → Opcode
  | .clearScreen => packByte 0x0#4 0x0#4 0xE0#8
  | .ret => packByte 0x0#4 0x0#4 0xEE#8
  | .scrollRight => packByte 0x0#4 0x0#4 0xFB#8
  | .scrollLeft => packByte 0x0#4 0x0#4 0xFC#8
  | .highResolutionOff => packByte 0x0#4 0x0#4 0xFE#8
  | .highResolutionOn => packByte 0x0#4 0x0#4 0xFF#8
  | .scrollDown n => packNibbles 0x0#4 0x0#4 0xC#4 n
  | .jump a => packAddr 0x1#4 a
  | .call a => packAddr 0x2#4 a
  | .skipIfEqualImm x k => packByte 0x3#4 x k
  | .skipIfUnequalImm x k => packByte 0x4#4 x k
  | .skipIfEqualReg x y => packNibbles 0x5#4 x y 0x0#4
  | .loadImm x k => packByte 0x6#4 x k
  | .addInPlace x k => packByte 0x7#4 x k
  | .loadReg x y => packNibbles 0x8#4 x y 0x0#4
  | .orReg x y => packNibbles 0x8#4 x y 0x1#4
  | .andReg x y => packNibbles 0x8#4 x y 0x2#4
  | .xorReg x y => packNibbles 0x8#4 x y 0x3#4
  | .add x y => packNibbles 0x8#4 x y 0x4#4
  | .sub x y => packNibbles 0x8#4 x y 0x5#4
  | .shiftRight x => packNibbles 0x8#4 x 0x0#4 0x6#4
  | .subReverse x y => packNibbles 0x8#4 x y 0x7#4
  | .shiftLeft x => packNibbles 0x8#4 x 0x0#4 0xE#4
  | .skipIfUnequalReg x y => packNibbles 0x9#4 x y 0x0#4
  | .setPointer a => packAddr 0xA#4 a
  | .jumpPlus a => packAddr 0xB#4 a
  | .random x k => packByte 0xC#4 x k
  | .drawLarge x y => packNibbles 0xD#4 x y 0x0#4
  | .draw x y n => packNibbles 0xD#4 x y n
  | .skipIfKey x => packByte 0xE#4 x 0x9E#8
  | .skipIfNotKey x => packByte 0xE#4 x 0xA1#8
  | .getTimer x => packByte 0xF#4 x 0x07#8
  | .keyBlock x => packByte 0xF#4 x 0x0A#8
  | .setTimer x => packByte 0xF#4 x 0x15#8
  | .setSound x => packByte 0xF#4 x 0x18#8
  | .addPointer x => packByte 0xF#4 x 0x1E#8
  | .getDigit x => packByte 0xF#4 x 0x29#8
  | .storeDecimal x => packByte 0xF#4 x 0x33#8
  | .storeRegisters x => packByte 0xF#4 x 0x55#8
  | .loadRegisters x => packByte 0xF#4 x 0x65#8
  | .storeRegistersRPL x => packByte 0xF#4 x 0x75#8
  | .loadRegistersRPL x => packByte 0xF#4 x 0x85#8
  | .invalid => 0x0000#16

/-! ## The opcode map as data (R96, R102) -/

/-- One row of the opcode map: its number, `mask`, `match`, and whether the row's `except` condition
`nibble = 0` is present (the Draw row alone). -/
structure OpcodeRow where
  order : Nat
  mask : Opcode
  pat : Opcode
  exceptNibble0 : Bool := false
  deriving DecidableEq, Repr

/-- Whether an opcode selects a row: `opcode & mask = match`, and the `except` condition does not hold. -/
def OpcodeRow.selects (r : OpcodeRow) (w : Opcode) : Bool :=
  (w &&& r.mask) == r.pat && !(r.exceptNibble0 && w.nibble == 0x0#4)

/-- Rows 1 to 14 of R96. -/
def opcodeRowsLow : List OpcodeRow :=
  [⟨1, 0xF0FF, 0x00E0, false⟩, ⟨2, 0xF0FF, 0x00EE, false⟩, ⟨3, 0xF0FF, 0x00FB, false⟩,
   ⟨4, 0xF0FF, 0x00FC, false⟩, ⟨5, 0xF0FF, 0x00FE, false⟩, ⟨6, 0xF0FF, 0x00FF, false⟩,
   ⟨7, 0xF0F0, 0x00C0, false⟩, ⟨8, 0xF000, 0x1000, false⟩, ⟨9, 0xF000, 0x2000, false⟩,
   ⟨10, 0xF000, 0x3000, false⟩, ⟨11, 0xF000, 0x4000, false⟩, ⟨12, 0xF000, 0x5000, false⟩,
   ⟨13, 0xF000, 0x6000, false⟩, ⟨14, 0xF000, 0x7000, false⟩]

/-- Rows 15 to 29 of R96. -/
def opcodeRowsMid : List OpcodeRow :=
  [⟨15, 0xF00F, 0x8000, false⟩, ⟨16, 0xF00F, 0x8001, false⟩, ⟨17, 0xF00F, 0x8002, false⟩,
   ⟨18, 0xF00F, 0x8003, false⟩, ⟨19, 0xF00F, 0x8004, false⟩, ⟨20, 0xF00F, 0x8005, false⟩,
   ⟨21, 0xF00F, 0x8006, false⟩, ⟨22, 0xF00F, 0x8007, false⟩, ⟨23, 0xF00F, 0x800E, false⟩,
   ⟨24, 0xF000, 0x9000, false⟩, ⟨25, 0xF000, 0xA000, false⟩, ⟨26, 0xF000, 0xB000, false⟩,
   ⟨27, 0xF000, 0xC000, false⟩, ⟨28, 0xF00F, 0xD000, false⟩, ⟨29, 0xF000, 0xD000, true⟩]

/-- Rows 30 to 43 of R96. -/
def opcodeRowsHigh : List OpcodeRow :=
  [⟨30, 0xF0FF, 0xE09E, false⟩, ⟨31, 0xF0FF, 0xE0A1, false⟩, ⟨32, 0xF0FF, 0xF007, false⟩,
   ⟨33, 0xF0FF, 0xF00A, false⟩, ⟨34, 0xF0FF, 0xF015, false⟩, ⟨35, 0xF0FF, 0xF018, false⟩,
   ⟨36, 0xF0FF, 0xF01E, false⟩, ⟨37, 0xF0FF, 0xF029, false⟩, ⟨38, 0xF0FF, 0xF033, false⟩,
   ⟨39, 0xF0FF, 0xF055, false⟩, ⟨40, 0xF0FF, 0xF065, false⟩, ⟨41, 0xF0FF, 0xF075, false⟩,
   ⟨42, 0xF0FF, 0xF085, false⟩, ⟨43, 0x0000, 0x0000, false⟩]

/-- The opcode map of R96 in ascending `order`. -/
def opcodeTable : List OpcodeRow := opcodeRowsLow ++ opcodeRowsMid ++ opcodeRowsHigh

/-- The number of the first row an opcode selects (R102); row 43 selects every opcode. -/
def tableRow (w : Opcode) : Nat := ((opcodeTable.find? (·.selects w)).map (·.order)).getD 43

/-- The row of the opcode map an instruction stands on. -/
def Instr.row : Instr → Nat
  | .clearScreen => 1 | .ret => 2 | .scrollRight => 3 | .scrollLeft => 4 | .highResolutionOff => 5
  | .highResolutionOn => 6 | .scrollDown _ => 7 | .jump _ => 8 | .call _ => 9 | .skipIfEqualImm _ _ => 10
  | .skipIfUnequalImm _ _ => 11 | .skipIfEqualReg _ _ => 12 | .loadImm _ _ => 13 | .addInPlace _ _ => 14
  | .loadReg _ _ => 15 | .orReg _ _ => 16 | .andReg _ _ => 17 | .xorReg _ _ => 18 | .add _ _ => 19
  | .sub _ _ => 20 | .shiftRight _ => 21 | .subReverse _ _ => 22 | .shiftLeft _ => 23
  | .skipIfUnequalReg _ _ => 24 | .setPointer _ => 25 | .jumpPlus _ => 26 | .random _ _ => 27
  | .drawLarge _ _ => 28 | .draw _ _ _ => 29 | .skipIfKey _ => 30 | .skipIfNotKey _ => 31
  | .getTimer _ => 32 | .keyBlock _ => 33 | .setTimer _ => 34 | .setSound _ => 35 | .addPointer _ => 36
  | .getDigit _ => 37 | .storeDecimal _ => 38 | .storeRegisters _ => 39 | .loadRegisters _ => 40
  | .storeRegistersRPL _ => 41 | .loadRegistersRPL _ => 42 | .invalid => 43

/-- The opcode bits the decoder looks at for an instruction: all but the ignored bits of R97. -/
def Instr.usedBits : Instr → Opcode
  | .clearScreen | .ret | .scrollRight | .scrollLeft | .highResolutionOff | .highResolutionOn
  | .scrollDown _ => 0xF0FF#16
  | .skipIfEqualReg _ _ | .skipIfUnequalReg _ _ => 0xFFF0#16
  | .shiftRight _ | .shiftLeft _ => 0xFF0F#16
  | .invalid => 0x0000#16
  | _ => 0xFFFF#16

/-! ## The host's table words -/

/-- The opcode whose bits are `w`, numbered as spec/opcode_table.json numbers them: bit 0 is the least
significant bit of the one 16-bit word, and every bit from `nbits` up is 0. -/
def tableOpcode (nbits w : Nat) : Opcode := BitVec.ofNat 16 (w % 2 ^ nbits)

/-- The instruction the decoder reads from a table word: the opcode's two bytes are laid out most significant
first (20_memory.md R61) and given to decodeBytes. No instruction is longer than 16 bits (R90), so a longer
word is none (log 11). -/
def decodeTableWord (nbits w : Nat) : Option Instr :=
  if nbits ≤ 16 then
    match decodeBytes [(tableOpcode nbits w).msb, (tableOpcode nbits w).lsb] with
    | .ok (i, _) => some i
    | .error _ => none
  else none

end Sys2Proof
end

