-- ==== Sys2Proof/Config.lean ====
section
/-! DEFINITION. What the spec fixes once for the machine (00_scope.md R6), the reset contents the model
names where the spec leaves a parameter (R7), and the two free values. -/

namespace Sys2Proof.Config

/-- MEM_SIZE, bytes of RAM (00_scope.md R6). -/
def ramSize : Nat := 4096

/-- The highest valid RAM address, 0xFFF (10_state.md R38). -/
def ramTop : Nat := 0xFFF

/-- The highest address an opcode can be fetched from (40_step_and_dispatch.md R121). -/
def fetchTop : Nat := 0xFFE

/-- The entry point (00_scope.md R6, 10_state.md R42). -/
def entryPoint : Word := 0x0200#16

/-- What a byte of RAM reads as that no instruction and no LOAD has written since power-on, in a memory
that lists nothing. The spec leaves `mem_init` a parameter (R7, D4). DESIGN CHOICE, log 1, unsafe:
a claim about State.reset alone could lean on this zero; a claim over every State does not. -/
def unlistedByte : Byte := 0x00#8

/-- What every slot of the RPL store holds in State.reset. The spec leaves `rpl_init` a parameter (R7, D5).
DESIGN CHOICE, log 2, unsafe: only a claim about State.reset alone could lean on it. -/
def rplInit : Vector Byte 8 := Vector.replicate 8 0x00#8

/-- STACK_DEPTH in State.reset: the spec's default (00_scope.md R7, D6). DESIGN CHOICE, log 3, unsafe for a
claim about State.reset alone: the depth is a field of State, so a claim over every State holds for every depth. -/
def defaultStackDepth : Nat := 16

/-- The free value: the byte presented on `rand` with the n-th STEP whose byte nothing in State fixes
(42_arithmetic.md R176: "a free draw under no law", D22). It has no body, so no proof can know it. Log 4, safe. -/
opaque freeRand : Nat → Byte

/-- The free value: whether IDLE keeps the output `disp_changed` (46_host_commands.md R278: "the outputs keep their
values") or makes it 0 (R281: "after any other command it is 0"). The two rules differ and no ruling of the spec
names the point. It has no body, so a claim holds under either ruling. Log 7, safe. -/
opaque idleKeepsDispChanged : Bool

end Sys2Proof.Config
end

