-- ==== Sys2Proof/Machine/State.lean ====
section
/-! DEFINITION. The state of the machine (10_state.md R20), plain data, and its value after reset (R42).
The fields `host`, `rand`, `draws` and `dispChanged` are the model's own: they carry the inputs of the coming commands
(46_host_commands.md R271) and the output `disp_changed`, not architectural state (R41). -/

namespace Sys2Proof.Machine

/-- The seven fault causes of the hardware (60_exceptions.md R291). A fault is taken, not an end of the run:
see `raise` in Machine/Ops.lean. -/
inductive FaultCode where
  /-- 1: Return with an empty call stack. -/
  | stackUnderflow
  /-- 2: Call with a full call stack. -/
  | stackOverflow
  /-- 3: a fetch with `pc > 0xFFE`. -/
  | fetchOutOfRange
  /-- 4: a data access above 0xFFF. -/
  | memOutOfRange
  /-- 5: an RPL transfer with `x > 7`. -/
  | rplIndexOutOfRange
  /-- 6: a key skip with `vx > 15`. -/
  | keyIndexOutOfRange
  /-- 7: DrawLarge or a scroll in Low mode. -/
  | modeViolation
  deriving DecidableEq, Repr

/-- The run state (10_state.md R32). -/
inductive RunState where
  /-- A STEP performs one fetch-decode-execute cycle. -/
  | running
  /-- Suspended by KeyBlock until KEY_RESOLVE, which writes register `r`. -/
  | awaitingKey (r : RegIx)
  /-- Stopped by fault `c` until RESET. -/
  | halted (c : FaultCode)
  deriving DecidableEq, Repr

/-- A command of the host with its operands (46_host_commands.md R271). -/
inductive Command where
  /-- IDLE, and the unassigned codes 9 to 15. -/
  | idle
  /-- STEP with the byte on the `rand` port. -/
  | step (rand : Byte)
  | tick
  | keyResolve (key : Nibble)
  | setKeys (keysIn : BitVec 16)
  | load (addr : Addr12) (data : Byte)
  | setDT (value : Byte)
  | setST (value : Byte)
  | reset
  deriving DecidableEq, Repr

/-- RAM: the bytes that differ from what an unlisted address reads as, by rising address (10_state.md R38).
Its operations and its canonical form `Memory.wf` stand in Machine/Memory.lean. -/
abbrev Memory := List Host.Cell

/-- The display grid: 64 rows of 128 one-bit cells (10_state.md R39). Bit `gx` of row `gy` is `disp[gx][gy]`. -/
abbrev Grid := Vector (BitVec 128) 64

/-- The whole mutable state of the core (10_state.md R20), the parameter STACK_DEPTH (00_scope.md R7), and the
model's input fields. -/
structure State where
  /-- RAM (R38). -/
  mem : Memory
  /-- The sixteen general registers (R21). -/
  V : Vector Byte 16
  /-- The RPL store (R37). -/
  RPL : Vector Byte 8
  /-- The call stack, most recent entry first: the head is `stack[sp-1]` of R34, and `sp` is the length. -/
  stack : List Word
  /-- The display grid (R39). -/
  disp : Grid
  /-- The resolution mode: false is Low (0), true is High (1) (R31). -/
  hires : Bool
  /-- The delay timer (R29). -/
  DT : Byte
  /-- The sound timer (R30). -/
  ST : Byte
  /-- The memory pointer (R28). -/
  I : Word
  /-- The program counter: between steps, the address of the next opcode (R25). -/
  pc : Word
  /-- The key vector: bit `k` is 1 when key `k` is pressed or held (R33). -/
  keys : BitVec 16
  /-- The run state (R32). -/
  run : RunState
  /-- STACK_DEPTH, the capacity of the call stack (00_scope.md R7): a parameter, written by no step (log 3). -/
  stackDepth : Nat
  /-- MODEL'S OWN: the commands the host will present, oldest first (log 5). -/
  host : List Command
  /-- MODEL'S OWN: the byte on the `rand` port in the current transaction (log 4). -/
  rand : Byte
  /-- MODEL'S OWN: how many free `rand` bytes have been drawn (log 4). -/
  draws : Nat
  /-- MODEL'S OWN: the output `disp_changed` as the last transaction left it (46_host_commands.md R270, R278, R281;
  log 7). No instruction reads or writes it. -/
  dispChanged : Bool
  deriving DecidableEq, Repr

/-- Why exec may answer no next state although an instruction has a meaning. No fault of the HARDWARE is one:
those are taken and give a next state (60_exceptions.md R296, log 6). -/
inductive Fault where
  /-- Raised by execDraw alone, on the term Draw with nibble 0, which is no instruction (45_display.md R236:
  1 to 15; R96 gives nibble 0 to DrawLarge). Decoding never answers it, so no step raises it. Safe (log 6). -/
  | notAnInstruction
  deriving DecidableEq, Repr

/-- Why exec refuses an instruction. -/
inductive Refusal where
  /-- Raised by exec's arm of an instruction that has no meaning yet. Safe. Every instruction has one, so
  nothing raises it. -/
  | notModelled (mnemonic : String)
  deriving DecidableEq, Repr

/-- The state when a reset completes, for a machine of the given STACK_DEPTH whose RAM and RPL store hold the
given contents, `mem_init` and `rpl_init`, which a reset does not write (10_state.md R42). No command is
pending, no free byte has been drawn, and `disp_changed` is 0 (46_host_commands.md R272). -/
def State.afterReset (stackDepth : Nat) (memInit : Memory) (rplInit : Vector Byte 8) : State where
  mem := memInit
  V := Vector.replicate 16 0x00#8
  RPL := rplInit
  stack := []
  disp := Vector.replicate 64 0#128
  hires := false
  DT := 0x00#8
  ST := 0x00#8
  I := 0x0000#16
  pc := Config.entryPoint
  keys := 0x0000#16
  run := .running
  stackDepth := stackDepth
  host := []
  rand := 0x00#8
  draws := 0
  dispChanged := false

/-- The machine right after reset (10_state.md R42): the parameters at the values logs 1, 2 and 3 name. -/
def State.reset : State := State.afterReset Config.defaultStackDepth [] Config.rplInit

end Sys2Proof.Machine
end

