-- ==== Sys2Proof/Machine/Ops.lean ====
section
/-! DEFINITION. The named operations every meaning is written over: registers, program counter, RAM, call stack,
RPL store, fetching, and taking a fault. There is no return from a fault (60_exceptions.md R297): only the
RESET command leaves Halted, and it stands in Machine/Commands.lean. -/

namespace Sys2Proof.Machine

/-- What a step answers. -/
abbrev Result := Host.Outcome State Fault Refusal

/-! ## Taking a fault (60_exceptions.md R296) -/

/-- Taking fault `c`: `run <- Halted(c)` and no other change. The pc keeps the address of the faulting opcode;
there is no vector and no saved state. -/
def raise (c : FaultCode) (s : State) : Result := .next { s with run := .halted c }

/-- The end of an instruction rule (40_step_and_dispatch.md R126): without a fault all its writes take effect
together; with a fault `c` none of them does, and `c` is taken in the state before the step. -/
def commit (s : State) : Except FaultCode State → Result
  | .ok t => .next t
  | .error c => raise c s

/-! ## General registers (10_state.md R21, R22) -/

/-- The value of register `r`. -/
def State.reg (s : State) (r : RegIx) : Byte := s.V[r.toNat]'r.isLt

/-- `V[r] <- v`. -/
def State.setReg (s : State) (r : RegIx) (v : Byte) : State := { s with V := s.V.set r.toNat v r.isLt }

/-- The flag register VF (10_state.md R24). -/
def flagReg : RegIx := 0xF#4

/-! ## Program counter (10_state.md R25, 40_step_and_dispatch.md R122, R127) -/

/-- The post-fetch program counter, `pc + 2`. -/
def State.npc (s : State) : Word := s.pc + 2#16

/-- `pc <- t`. -/
def State.goto (s : State) (t : Word) : State := { s with pc := t }

/-- The default: `pc <- npc`. -/
def State.advance (s : State) : State := s.goto s.npc

/-- `pc <- npc + 2` when the condition holds, else `pc <- npc` (41_control_flow.md R144). -/
def State.skipIf (s : State) (b : Bool) : State := s.goto (if b then s.npc + 2#16 else s.npc)

/-! ## RAM (20_memory.md R63 to R68) -/

/-- The byte of RAM at an address, without the range check. -/
def State.byteAt (s : State) (a : Nat) : Byte := s.mem.read a

/-- `MemRead(a, 1)` (R63). -/
def State.memRead (s : State) (a : Nat) : Except FaultCode Byte :=
  if a > Config.ramTop then .error .memOutOfRange else .ok (s.byteAt a)

/-- `MemWrite(a, 1, v)` (R64). -/
def State.memWrite (s : State) (a : Nat) (v : Byte) : Except FaultCode State :=
  if a > Config.ramTop then .error .memOutOfRange else .ok { s with mem := s.mem.write a v }

/-- MemRead of `n` bytes at rising addresses from `a`; a fault of any of them is the result. -/
def State.readBytes (s : State) (a : Nat) : Nat → Except FaultCode (List Byte)
  | 0 => .ok []
  | n + 1 => do
    let b ← s.memRead a
    let bs ← s.readBytes (a + 1) n
    .ok (b :: bs)

/-- MemWrite of the bytes at rising addresses from `a`; a fault of any of them is the result, and `commit` then
drops the writes before it, so the whole access is all-or-nothing (R68). -/
def State.writeBytes (s : State) (a : Nat) : List Byte → Except FaultCode State
  | [] => .ok s
  | b :: bs => do
    let t ← s.memWrite a b
    t.writeBytes (a + 1) bs

/-! ## Call stack (10_state.md R34 to R36) -/

/-- `sp`, the number of entries. -/
def State.sp (s : State) : Nat := s.stack.length

/-- `push(v)` (R35): StackOverflow when `sp = STACK_DEPTH`. A stack longer than STACK_DEPTH, which no run
reaches (R43), is full too. -/
def State.push (s : State) (v : Word) : Except FaultCode State :=
  if s.sp ≥ s.stackDepth then .error .stackOverflow else .ok { s with stack := v :: s.stack }

/-- `pop()` (R36): StackUnderflow when `sp = 0`, else the most recent entry and the state without it. -/
def State.pop (s : State) : Except FaultCode (Word × State) :=
  match s.stack with
  | [] => .error .stackUnderflow
  | v :: rest => .ok (v, { s with stack := rest })

/-! ## Register ranges (43_pointer_and_memory.md R195 to R199) -/

/-- A file of registers with its first slots replaced by a list of bytes, the others unchanged. -/
def overlay {n : Nat} (old : Vector Byte n) (bytes : List Byte) : Vector Byte n :=
  Vector.ofFn fun i => (bytes[i.val]?).getD old[i]

/-- The values of `V[0]` to `V[x]`. -/
def State.regsTo (s : State) (x : RegIx) : List Byte := s.V.toList.take (x.toNat + 1)

/-- The values of `RPL[0]` to `RPL[x]`. -/
def State.rplTo (s : State) (x : RegIx) : List Byte := s.RPL.toList.take (x.toNat + 1)

/-! ## Fetch (40_step_and_dispatch.md R121) -/

/-- The opcode at `pc`: FetchOutOfRange when `pc > 0xFFE`, else `mem[pc] : mem[pc + 1]`. -/
def State.fetch (s : State) : Except FaultCode Opcode :=
  if s.pc.toNat > Config.fetchTop then .error .fetchOutOfRange
  else .ok (Opcode.ofBytes (s.byteAt s.pc.toNat) (s.byteAt (s.pc.toNat + 1)))

end Sys2Proof.Machine
end

