-- ==== Sys2Proof/Machine/Operands.lean ====
section
/-! DEFINITION. The operand forms: immediates (30_encoding.md R93), the effective address (43_pointer_and_memory.md
R190), the register a JumpPlus names (41_control_flow.md R141), and the index checks. A register operand is
`State.reg` of the state before the instruction writes anything: every meaning reads its operands from the state
it is given, so each is a snapshot (40_step_and_dispatch.md R124). -/

namespace Sys2Proof.Machine

/-- `zext_16(addr)` (R93). -/
def zextAddr (a : Addr12) : Word := a.zeroExtend 16

/-- `zext_16(v)` of a register's value. -/
def zextByte (v : Byte) : Word := v.zeroExtend 16

/-- `zext_8(key)` (46_host_commands.md R275). -/
def zextKey (k : Nibble) : Byte := k.zeroExtend 8

/-- The low 8 bits of a natural number (00_scope.md R9). -/
def trunc8 (n : Nat) : Byte := BitVec.ofNat 8 n

/-- The low 16 bits of a natural number (00_scope.md R9). -/
def trunc16 (n : Nat) : Word := BitVec.ofNat 16 n

/-- The effective address `I + i`, a natural number that never wraps (20_memory.md R65). -/
def State.ea (s : State) (i : Nat) : Nat := s.I.toNat + i

/-- The register index in bits 11:8 of an address immediate (41_control_flow.md R141). -/
def jumpPlusReg (a : Addr12) : RegIx := a.extractLsb' 8 4

/-- A register's value as a key index: KeyIndexOutOfRange above 15 (44_timers_and_keys.md R213, D12). -/
def keyIndex (v : Byte) : Except FaultCode Nat :=
  if v.toNat > 15 then .error .keyIndexOutOfRange else .ok v.toNat

/-- Whether key `k` is pressed or held (10_state.md R33). -/
def State.keyPressed (s : State) (k : Nat) : Bool := s.keys.getLsbD k

/-- The index check of the RPL transfers: RplIndexOutOfRange when `x > 7` (43_pointer_and_memory.md R198, D11). -/
def rplIndex (x : RegIx) : Except FaultCode Unit :=
  if x.toNat > 7 then .error .rplIndexOutOfRange else .ok ()

/-- The mode check of DrawLarge and the scrolls: ModeViolation in Low mode (45_display.md R238, D13). -/
def State.requireHigh (s : State) : Except FaultCode Unit :=
  if s.hires then .ok () else .error .modeViolation

/-- The three decimal digits of a byte, hundreds first (43_pointer_and_memory.md R194). -/
def decimalDigits (v : Byte) : List Byte :=
  [trunc8 (v.toNat / 100), trunc8 (v.toNat / 10 % 10), trunc8 (v.toNat % 10)]

end Sys2Proof.Machine
end

