-- ==== Sys2Proof/Machine/Flags.lean ====
section
/-! DEFINITION. The flag computations, all into V[15] as a whole byte 0x00 or 0x01 (10_state.md R24), and the
order of the flag write and the result write (42_arithmetic.md R161, D14). -/

namespace Sys2Proof.Machine

/-- The byte a flag is written as: 0x01 or 0x00. -/
def flagByte (b : Bool) : Byte := if b then 0x01#8 else 0x00#8

/-- Carry of `a + b` (42_arithmetic.md R160). -/
def carry (a b : Byte) : Bool := decide (a.toNat + b.toNat > 255)

/-- NOT borrow of `a - b`: 1 when `a >= b`, the equal case included (R160, D33). -/
def notBorrow (a b : Byte) : Bool := decide (a.toNat ≥ b.toNat)

/-- The bit a right shift by one shifts out, bit 0 (R160). -/
def shiftedOutRight (a : Byte) : Bool := a.getLsbD 0

/-- The bit a left shift by one shifts out, bit 7 (R160). -/
def shiftedOutLeft (a : Byte) : Bool := a.getLsbD 7

/-- `trunc_8(a + b)`. -/
def addBytes (a b : Byte) : Byte := trunc8 (a.toNat + b.toNat)

/-- `trunc_8(a + 256 - b)`. -/
def subBytes (a b : Byte) : Byte := trunc8 (a.toNat + 256 - b.toNat)

/-- First `V[15] <- flag`, then `V[x] <- result`: with `x = 15` the result survives (R161). -/
def State.setFlagThenReg (s : State) (flag : Bool) (x : RegIx) (result : Byte) : State :=
  (s.setReg flagReg (flagByte flag)).setReg x result

end Sys2Proof.Machine
end

