-- ==== Sys2Proof/Machine/Arithmetic.lean ====
section
/-! DEFINITION. Register loads, the 8-bit ALU and Random (42_arithmetic.md R162 to R176). None of these faults. -/

namespace Sys2Proof.Machine

/-- LoadImm (R162). -/
def execLoadImm (x : RegIx) (byte : Byte) (s : State) : Result := .next (s.setReg x byte).advance

/-- AddInPlace (R163): no flag. -/
def execAddInPlace (x : RegIx) (byte : Byte) (s : State) : Result :=
  .next (s.setReg x (addBytes (s.reg x) byte)).advance

/-- LoadReg (R164). -/
def execLoadReg (x y : RegIx) (s : State) : Result := .next (s.setReg x (s.reg y)).advance

/-- Or (R165): no flag. -/
def execOr (x y : RegIx) (s : State) : Result := .next (s.setReg x (s.reg x ||| s.reg y)).advance

/-- And (R166): no flag. -/
def execAnd (x y : RegIx) (s : State) : Result := .next (s.setReg x (s.reg x &&& s.reg y)).advance

/-- Xor (R167): no flag. -/
def execXor (x y : RegIx) (s : State) : Result := .next (s.setReg x (s.reg x ^^^ s.reg y)).advance

/-- Add (R168): flag = carry. -/
def execAdd (x y : RegIx) (s : State) : Result :=
  .next (s.setFlagThenReg (carry (s.reg x) (s.reg y)) x (addBytes (s.reg x) (s.reg y))).advance

/-- Sub (R169): flag = NOT borrow of `vx - vy`. -/
def execSub (x y : RegIx) (s : State) : Result :=
  .next (s.setFlagThenReg (notBorrow (s.reg x) (s.reg y)) x (subBytes (s.reg x) (s.reg y))).advance

/-- ShiftRight (R170): flag = bit 0 of the original value; `y` plays no part. -/
def execShiftRight (x : RegIx) (s : State) : Result :=
  .next (s.setFlagThenReg (shiftedOutRight (s.reg x)) x (s.reg x >>> 1)).advance

/-- SubReverse (R171): flag = NOT borrow of `vy - vx`; the result goes to V[x]. -/
def execSubReverse (x y : RegIx) (s : State) : Result :=
  .next (s.setFlagThenReg (notBorrow (s.reg y) (s.reg x)) x (subBytes (s.reg y) (s.reg x))).advance

/-- ShiftLeft (R172): flag = bit 7 of the original value; `y` plays no part. -/
def execShiftLeft (x : RegIx) (s : State) : Result :=
  .next (s.setFlagThenReg (shiftedOutLeft (s.reg x)) x (s.reg x <<< 1)).advance

/-- Random (R176): the byte on the `rand` port of this STEP, ANDed with the mask. -/
def execRandom (x : RegIx) (byte : Byte) (s : State) : Result :=
  .next (s.setReg x (s.rand &&& byte)).advance

end Sys2Proof.Machine
end

