-- ==== Sys2Proof/Machine/ControlFlow.lean ====
section
/-! DEFINITION. Invalid (40_step_and_dispatch.md R128), jumps, call, return and the conditional skips
(41_control_flow.md R140 to R147). -/

namespace Sys2Proof.Machine

/-- Invalid (R128): a silent no-op that advances the counter. -/
def execInvalid (s : State) : Result := .next s.advance

/-- Jump (R140). -/
def execJump (addr : Addr12) (s : State) : Result := .next (s.goto (zextAddr addr))

/-- JumpPlus (R141): adds the register whose index is `addr[11:8]`. -/
def execJumpPlus (addr : Addr12) (s : State) : Result :=
  .next (s.goto (zextAddr addr + zextByte (s.reg (jumpPlusReg addr))))

/-- Call (R142): pushes the address of the next opcode. -/
def execCall (addr : Addr12) (s : State) : Result :=
  commit s do
    let t ← s.push s.npc
    .ok (t.goto (zextAddr addr))

/-- Return (R143). -/
def execReturn (s : State) : Result :=
  commit s do
    let popped ← s.pop
    .ok (popped.2.goto popped.1)

/-- SkipIfEqualImm (R144). -/
def execSkipIfEqualImm (x : RegIx) (byte : Byte) (s : State) : Result :=
  .next (s.skipIf (decide (s.reg x = byte)))

/-- SkipIfUnequalImm (R145). -/
def execSkipIfUnequalImm (x : RegIx) (byte : Byte) (s : State) : Result :=
  .next (s.skipIf (decide (s.reg x ≠ byte)))

/-- SkipIfEqualReg (R146). -/
def execSkipIfEqualReg (x y : RegIx) (s : State) : Result :=
  .next (s.skipIf (decide (s.reg x = s.reg y)))

/-- SkipIfUnequalReg (R147). -/
def execSkipIfUnequalReg (x y : RegIx) (s : State) : Result :=
  .next (s.skipIf (decide (s.reg x ≠ s.reg y)))

end Sys2Proof.Machine
end

