-- ==== Sys2Proof/Machine/Display.lean ====
section
/-! DEFINITION. The display bitmap controller and the sprite blitter (45_display.md R230 to R241): cells, the
coordinate spaces, row expansion, the cells a sprite lights, the toggle loop, and the scrolls. -/

namespace Sys2Proof.Machine

/-! ## Cells (10_state.md R39, 00_scope.md R11) -/

/-- `disp[gx][gy]`; false outside the grid. -/
def Grid.cell (d : Grid) (gx gy : Nat) : Bool :=
  if h : gy < 64 then d[gy].getLsbD gx else false

/-- `disp[gx][gy] <- 1 - disp[gx][gy]`; no change outside the grid. -/
def Grid.toggle (d : Grid) (gx gy : Nat) : Grid :=
  if h : gy < 64 then d.set gy (d[gy] ^^^ BitVec.twoPow 128 gx) else d

/-- A grid given row by row. -/
def Grid.ofRows (row : Nat → BitVec 128) : Grid := Vector.ofFn fun gy => row gy.val

/-- Row `gy`; all unlit outside the grid. -/
def Grid.row (d : Grid) (gy : Nat) : BitVec 128 := if h : gy < 64 then d[gy] else 0#128

/-- Every cell unlit. -/
def Grid.blank : Grid := Vector.replicate 64 0#128

/-! ## Coordinate spaces (R230, R231) -/

/-- The active width, height and scale `(W, H, S)`. -/
structure Screen where
  W : Nat
  H : Nat
  S : Nat
  deriving DecidableEq, Repr

/-- High mode: 128 x 64, one cell a pixel. -/
def Screen.high : Screen := ⟨128, 64, 1⟩

/-- Low mode: 64 x 32, a 2 x 2 block of cells a pixel. -/
def Screen.low : Screen := ⟨64, 32, 2⟩

/-- The screen of the active mode. -/
def State.screen (s : State) : Screen := if s.hires then Screen.high else Screen.low

/-! ## Rows of a sprite (R234, R236, R240) -/

/-- A sprite byte as 8 pixels, most significant bit first (R234). -/
def expandByte (b : Byte) : List Bool := (List.range 8).map fun c => b.getLsbD (7 - c)

/-- The rows of an 8-column sprite, one byte a row (R236). -/
def smallRows (bytes : List Byte) : List (List Bool) := bytes.map expandByte

/-- The rows of a 16-column sprite, two bytes a row, the left half first (R240, D17). -/
def largeRows : List Byte → List (List Bool)
  | left :: right :: rest => (expandByte left ++ expandByte right) :: largeRows rest
  | _ => []

/-! ## The blitter (R232, R233, R235, R237) -/

/-- The cells of logical pixel `(px, py)`, in the order of the two inner loops of R237 (R231). -/
def Screen.pixelCells (m : Screen) (px py : Nat) : List (Nat × Nat) :=
  (List.range m.S).flatMap fun dy => (List.range m.S).map fun dx => (m.S * px + dx, m.S * py + dy)

/-- The cells the lit pixels of a sprite at origin `(x0, y0)` land on, in the order of the loops of R237. A pixel
past the right or the bottom edge is dropped (R233). -/
def Screen.spriteCells (m : Screen) (rows : List (List Bool)) (x0 y0 : Nat) : List (Nat × Nat) :=
  rows.zipIdx.flatMap fun rowAt => rowAt.1.zipIdx.flatMap fun pixelAt =>
    if pixelAt.1 && decide (x0 + pixelAt.2 < m.W) && decide (y0 + rowAt.2 < m.H) then
      m.pixelCells (x0 + pixelAt.2) (y0 + rowAt.2)
    else []

/-- The toggle loop of R237: every cell is toggled in turn, and the collision bit is set by one that was lit. -/
def Grid.blit : Grid → List (Nat × Nat) → Grid × Bool
  | d, [] => (d, false)
  | d, c :: cells =>
    let rest := (d.toggle c.1 c.2).blit cells
    (rest.1, d.cell c.1 c.2 || rest.2)

/-- Draw a sprite at register coordinates `(vx, vy)`: the origin is reduced into the screen (R232), the cells are
toggled, and V[15] receives the collision flag (R235, R236). -/
def State.drawSprite (s : State) (m : Screen) (rows : List (List Bool)) (vx vy : Byte) : State :=
  let drawn := s.disp.blit (m.spriteCells rows (vx.toNat % m.W) (vy.toNat % m.H))
  { s with disp := drawn.1 }.setReg flagReg (flagByte drawn.2)

/-! ## Scrolls (R241 to R245)

Column `gx` is bit `gx` of its row, so a move to the right by `k` columns is a left shift of the row by `k` bits:
the vacated columns are cleared and the bits shifted past column 127 are lost. -/

/-- Every row moved right by `k` columns. -/
def Grid.scrollRight (d : Grid) (k : Nat) : Grid := Grid.ofRows fun gy => d.row gy <<< k

/-- Every row moved left by `k` columns. -/
def Grid.scrollLeft (d : Grid) (k : Nat) : Grid := Grid.ofRows fun gy => d.row gy >>> k

/-- The grid moved down by `n` rows, the vacated rows cleared. -/
def Grid.scrollDown (d : Grid) (n : Nat) : Grid :=
  Grid.ofRows fun gy => if gy ≥ n then d.row (gy - n) else 0#128

end Sys2Proof.Machine
end

