-- ==== Sys2Proof/Machine/DisplayInstr.lean ====
section
/-! DEFINITION. The display instructions (45_display.md R236 to R248). The mode check comes before every other
check (R238, 60_exceptions.md R294). -/

namespace Sys2Proof.Machine

/-- Draw (R236): all `nibble` bytes are read and checked before anything is drawn (D18). Nibble 0 is no Draw
(R96): that term stops under its own name. -/
def execDraw (x y : RegIx) (nibble : Nibble) (s : State) : Result :=
  if nibble = 0x0#4 then .fault .notAnInstruction
  else commit s do
    let bytes ← s.readBytes (s.ea 0) nibble.toNat
    .ok (s.drawSprite s.screen (smallRows bytes) (s.reg x) (s.reg y)).advance

/-- DrawLarge (R240): 32 bytes, 16 rows of 16 pixels, High mode only. -/
def execDrawLarge (x y : RegIx) (s : State) : Result :=
  commit s do
    s.requireHigh
    let bytes ← s.readBytes (s.ea 0) 32
    .ok (s.drawSprite Screen.high (largeRows bytes) (s.reg x) (s.reg y)).advance

/-- ScrollRight (R243): by 4 columns. -/
def execScrollRight (s : State) : Result :=
  commit s do
    s.requireHigh
    .ok { s with disp := s.disp.scrollRight 4 }.advance

/-- ScrollLeft (R244): by 4 columns. -/
def execScrollLeft (s : State) : Result :=
  commit s do
    s.requireHigh
    .ok { s with disp := s.disp.scrollLeft 4 }.advance

/-- ScrollDown (R245): by `nibble` rows; 0 leaves the grid unchanged. -/
def execScrollDown (nibble : Nibble) (s : State) : Result :=
  commit s do
    s.requireHigh
    .ok { s with disp := s.disp.scrollDown nibble.toNat }.advance

/-- ClearScreen (R246): legal in both modes. -/
def execClearScreen (s : State) : Result := .next { s with disp := Grid.blank }.advance

/-- HighResolutionOff (R247): the grid is unchanged (D27). -/
def execHighResolutionOff (s : State) : Result := .next { s with hires := false }.advance

/-- HighResolutionOn (R248): the grid is unchanged (D27). -/
def execHighResolutionOn (s : State) : Result := .next { s with hires := true }.advance

end Sys2Proof.Machine
end

