-- ==== Sys2Proof/Machine/PointerMemory.lean ====
section
/-! DEFINITION. The memory pointer, digits, decimal conversion, and the bulk transfers to RAM and to the RPL
store (43_pointer_and_memory.md R191 to R199). No bulk transfer changes `I` (R197). -/

namespace Sys2Proof.Machine

/-- SetPointer (R191). -/
def execSetPointer (addr : Addr12) (s : State) : Result := .next { s with I := zextAddr addr }.advance

/-- AddPointer (R192): wraps modulo 65536, no flag (D15). -/
def execAddPointer (x : RegIx) (s : State) : Result :=
  .next { s with I := trunc16 (s.I.toNat + (s.reg x).toNat) }.advance

/-- GetDigit (R193): the whole byte is multiplied (D32). -/
def execGetDigit (x : RegIx) (s : State) : Result :=
  .next { s with I := trunc16 (5 * (s.reg x).toNat) }.advance

/-- StoreDecimal (R194). -/
def execStoreDecimal (x : RegIx) (s : State) : Result :=
  commit s do
    let t ← s.writeBytes (s.ea 0) (decimalDigits (s.reg x))
    .ok t.advance

/-- StoreRegisters (R195). -/
def execStoreRegisters (x : RegIx) (s : State) : Result :=
  commit s do
    let t ← s.writeBytes (s.ea 0) (s.regsTo x)
    .ok t.advance

/-- LoadRegisters (R196). -/
def execLoadRegisters (x : RegIx) (s : State) : Result :=
  commit s do
    let bytes ← s.readBytes (s.ea 0) (x.toNat + 1)
    .ok { s with V := overlay s.V bytes }.advance

/-- StoreRegistersRPL (R198). -/
def execStoreRegistersRPL (x : RegIx) (s : State) : Result :=
  commit s do
    rplIndex x
    .ok { s with RPL := overlay s.RPL (s.regsTo x) }.advance

/-- LoadRegistersRPL (R199). -/
def execLoadRegistersRPL (x : RegIx) (s : State) : Result :=
  commit s do
    rplIndex x
    .ok { s with V := overlay s.V (s.rplTo x) }.advance

end Sys2Proof.Machine
end

