-- ==== Sys2Proof/Machine/TimersKeys.lean ====
section
/-! DEFINITION. Timer access, key skips and the key-block (44_timers_and_keys.md R210 to R215). -/

namespace Sys2Proof.Machine

/-- GetTimer (R210). -/
def execGetTimer (x : RegIx) (s : State) : Result := .next (s.setReg x s.DT).advance

/-- SetTimer (R211). -/
def execSetTimer (x : RegIx) (s : State) : Result := .next { s with DT := s.reg x }.advance

/-- SetSound (R212). -/
def execSetSound (x : RegIx) (s : State) : Result := .next { s with ST := s.reg x }.advance

/-- SkipIfKey (R213). -/
def execSkipIfKey (x : RegIx) (s : State) : Result :=
  commit s do
    let k ← keyIndex (s.reg x)
    .ok (s.skipIf (s.keyPressed k))

/-- SkipIfNotKey (R214). -/
def execSkipIfNotKey (x : RegIx) (s : State) : Result :=
  commit s do
    let k ← keyIndex (s.reg x)
    .ok (s.skipIf (!s.keyPressed k))

/-- KeyBlock (R215): records the index `x` and suspends; the counter has moved past the opcode. -/
def execKeyBlock (x : RegIx) (s : State) : Result := .next { s with run := .awaitingKey x }.advance

end Sys2Proof.Machine
end

