-- ==== Sys2Proof/Machine/Dispatch.lean ====
section
/-! DEFINITION. The dispatch multiplexer: exactly one instruction rule applies to a decoded instruction
(40_step_and_dispatch.md R125). -/

namespace Sys2Proof.Machine

def exec (i : Instr) (s : State) : Host.Outcome State Fault Refusal :=
  match i with
  | .clearScreen => Sys2Proof.Machine.execClearScreen s
  | .ret => Sys2Proof.Machine.execReturn s
  | .scrollRight => Sys2Proof.Machine.execScrollRight s
  | .scrollLeft => Sys2Proof.Machine.execScrollLeft s
  | .highResolutionOff => Sys2Proof.Machine.execHighResolutionOff s
  | .highResolutionOn => Sys2Proof.Machine.execHighResolutionOn s
  | .scrollDown nibble => Sys2Proof.Machine.execScrollDown nibble s
  | .jump addr => Sys2Proof.Machine.execJump addr s
  | .call addr => Sys2Proof.Machine.execCall addr s
  | .skipIfEqualImm x byte => Sys2Proof.Machine.execSkipIfEqualImm x byte s
  | .skipIfUnequalImm x byte => Sys2Proof.Machine.execSkipIfUnequalImm x byte s
  | .skipIfEqualReg x y => Sys2Proof.Machine.execSkipIfEqualReg x y s
  | .loadImm x byte => Sys2Proof.Machine.execLoadImm x byte s
  | .addInPlace x byte => Sys2Proof.Machine.execAddInPlace x byte s
  | .loadReg x y => Sys2Proof.Machine.execLoadReg x y s
  | .orReg x y => Sys2Proof.Machine.execOr x y s
  | .andReg x y => Sys2Proof.Machine.execAnd x y s
  | .xorReg x y => Sys2Proof.Machine.execXor x y s
  | .add x y => Sys2Proof.Machine.execAdd x y s
  | .sub x y => Sys2Proof.Machine.execSub x y s
  | .shiftRight x => Sys2Proof.Machine.execShiftRight x s
  | .subReverse x y => Sys2Proof.Machine.execSubReverse x y s
  | .shiftLeft x => Sys2Proof.Machine.execShiftLeft x s
  | .skipIfUnequalReg x y => Sys2Proof.Machine.execSkipIfUnequalReg x y s
  | .setPointer addr => Sys2Proof.Machine.execSetPointer addr s
  | .jumpPlus addr => Sys2Proof.Machine.execJumpPlus addr s
  | .random x byte => Sys2Proof.Machine.execRandom x byte s
  | .drawLarge x y => Sys2Proof.Machine.execDrawLarge x y s
  | .draw x y nibble => Sys2Proof.Machine.execDraw x y nibble s
  | .skipIfKey x => Sys2Proof.Machine.execSkipIfKey x s
  | .skipIfNotKey x => Sys2Proof.Machine.execSkipIfNotKey x s
  | .getTimer x => Sys2Proof.Machine.execGetTimer x s
  | .keyBlock x => Sys2Proof.Machine.execKeyBlock x s
  | .setTimer x => Sys2Proof.Machine.execSetTimer x s
  | .setSound x => Sys2Proof.Machine.execSetSound x s
  | .addPointer x => Sys2Proof.Machine.execAddPointer x s
  | .getDigit x => Sys2Proof.Machine.execGetDigit x s
  | .storeDecimal x => Sys2Proof.Machine.execStoreDecimal x s
  | .storeRegisters x => Sys2Proof.Machine.execStoreRegisters x s
  | .loadRegisters x => Sys2Proof.Machine.execLoadRegisters x s
  | .storeRegistersRPL x => Sys2Proof.Machine.execStoreRegistersRPL x s
  | .loadRegistersRPL x => Sys2Proof.Machine.execLoadRegistersRPL x s
  | .invalid => Sys2Proof.Machine.execInvalid s

end Sys2Proof.Machine
end

