-- ==== Sys2Proof/Machine/Cycle.lean ====
section
/-! DEFINITION. One STEP (40_step_and_dispatch.md R120 to R131). A meaning is given the state with `pc` at the
opcode and computes `npc = pc + 2` itself, so that a fault leaves `pc` there (R126). -/

namespace Sys2Proof.Machine

/-- Fetch, decode, execute (R121 to R126). -/
def cycle (s : State) : Result :=
  match s.fetch with
  | .error c => raise c s
  | .ok opcode => exec (decode opcode) s

/-- The command STEP in a state whose `rand` field holds the transaction's byte: one cycle when Running, and
nothing at all when AwaitingKey or Halted (R120). -/
def stepCore (s : State) : Result :=
  match s.run with
  | .running => cycle s
  | .awaitingKey _ => .next s
  | .halted _ => .next s

end Sys2Proof.Machine
end

