-- ==== Sys2Proof/Machine/Commands.lean ====
section
/-! DEFINITION. The host command interface (46_host_commands.md): the input ports and the command encoding, what
each command does, the outputs, and which command comes next. -/

namespace Sys2Proof.Machine

/-! ## Input ports (R270, R271) -/

/-- The input ports of one transaction (R270). `clk` carries no information here: no rule depends on time. -/
structure Ports where
  cmd : BitVec 4
  rand : Byte
  key : Nibble
  keysIn : BitVec 16
  ldAddr : Addr12
  ldData : Byte
  tmrData : Byte
  dispX : BitVec 7
  dispY : BitVec 6
  deriving DecidableEq, Repr

/-- The command a transaction presents (R271); codes 9 to 15 are IDLE (R278). -/
def Ports.command (p : Ports) : Command :=
  match p.cmd with
  | 0x0#4 => .idle
  | 0x1#4 => .step p.rand
  | 0x2#4 => .tick
  | 0x3#4 => .keyResolve p.key
  | 0x4#4 => .setKeys p.keysIn
  | 0x5#4 => .load p.ldAddr p.ldData
  | 0x6#4 => .setDT p.tmrData
  | 0x7#4 => .setST p.tmrData
  | 0x8#4 => .reset
  | _ => .idle

/-! ## The commands (R272 to R279) -/

/-- RESET (R272): every piece of state to its reset value, but RAM and the RPL store, which are not written. The
machine's parameter and the model's input fields are no state and stay (log 5). -/
def State.commandReset (s : State) : State :=
  { State.afterReset s.stackDepth s.mem s.RPL with host := s.host, rand := s.rand, draws := s.draws }

/-- One timer under TICK: one less, floored at 0 (R274). -/
def tickTimer (t : Byte) : Byte := if t = 0x00#8 then t else t - 1#8

/-- TICK (R274): both timers, in every run state. -/
def State.commandTick (s : State) : State := { s with DT := tickTimer s.DT, ST := tickTimer s.ST }

/-- KEY_RESOLVE (R275): in AwaitingKey(r) writes the key index into V[r] and resumes; otherwise ignored. -/
def State.commandKeyResolve (s : State) (key : Nibble) : State :=
  match s.run with
  | .awaitingKey r => { s with run := .running }.setReg r (zextKey key)
  | .running => s
  | .halted _ => s

/-- SET_KEYS (R276): the whole vector is replaced. -/
def State.commandSetKeys (s : State) (keysIn : BitVec 16) : State := { s with keys := keysIn }

/-- LOAD (R277): one byte; a 12-bit address is always in range. -/
def State.commandLoad (s : State) (addr : Addr12) (data : Byte) : State :=
  { s with mem := s.mem.write addr.toNat data }

/-- SET_DT (R279). -/
def State.commandSetDT (s : State) (value : Byte) : State := { s with DT := value }

/-- SET_ST (R279). -/
def State.commandSetST (s : State) (value : Byte) : State := { s with ST := value }

/-- STEP (R273) with the byte on its `rand` port. -/
def State.commandStep (s : State) (rand : Byte) : Result := stepCore { s with rand := rand }

/-- What a command does, as one indivisible state change (R271). Only STEP can fault (60_exceptions.md R292). -/
def transact (c : Command) (s : State) : Result :=
  match c with
  | .idle => .next s
  | .step rand => s.commandStep rand
  | .tick => .next s.commandTick
  | .keyResolve key => .next (s.commandKeyResolve key)
  | .setKeys keysIn => .next (s.commandSetKeys keysIn)
  | .load addr data => .next (s.commandLoad addr data)
  | .setDT value => .next (s.commandSetDT value)
  | .setST value => .next (s.commandSetST value)
  | .reset => .next s.commandReset

/-- The command the next step executes: the head of the host's list; with an empty list a STEP whose `rand` is a
free value (log 4, log 5). -/
def State.nextCommand (s : State) : Command :=
  match s.host with
  | [] => .step (Config.freeRand s.draws)
  | c :: _ => c

/-- The input fields once the next command is taken: it leaves the list, or one more free byte has been drawn. -/
def State.dequeue (s : State) : State :=
  match s.host with
  | [] => { s with draws := s.draws + 1 }
  | _ :: rest => { s with host := rest }

/-- `disp_changed` after a command that took the machine from `before` to `after`. After a STEP: whether some cell
differs (40_step_and_dispatch.md R129). After IDLE: as before (R278) or 0 (R281), which of the two being a free value
(log 7). After any other command: 0 (R281, R272). -/
def Command.dispChanged (c : Command) (before after : State) : Bool :=
  match c with
  | .step _ => decide (before.disp ≠ after.disp)
  | .idle => before.dispChanged && Config.idleKeepsDispChanged
  | .tick => false
  | .keyResolve _ => false
  | .setKeys _ => false
  | .load _ _ => false
  | .setDT _ => false
  | .setST _ => false
  | .reset => false

/-- The answer of a transaction with the output `disp_changed` set (R270: "result of the most recent command"). -/
def showDispChanged (c : Command) (before : State) : Result → Result
  | .next after => .next { after with dispChanged := c.dispChanged before after }
  | .fault f => .fault f
  | .refused r => .refused r

/-- One transaction: the next command is taken and applied, and its output is set. -/
def runNext (s : State) : Result := showDispChanged s.nextCommand s (transact s.nextCommand s.dequeue)

/-! ## Outputs (R280, R281) -/

/-- The number of a fault cause on `fault_code` (60_exceptions.md R291). -/
def FaultCode.number : FaultCode → BitVec 3
  | .stackUnderflow => 1#3
  | .stackOverflow => 2#3
  | .fetchOutOfRange => 3#3
  | .memOutOfRange => 4#3
  | .rplIndexOutOfRange => 5#3
  | .keyIndexOutOfRange => 6#3
  | .modeViolation => 7#3

/-- The output ports (R270, R280, R281). -/
structure Outputs where
  dtOut : Byte
  stOut : Byte
  dispQ : Bool
  dispChanged : Bool
  awaitingKey : Bool
  awaitReg : Nibble
  halted : Bool
  faultCode : BitVec 3
  deriving DecidableEq, Repr

/-- `await_reg`: the register a key-block waits on, else 0. -/
def RunState.awaitReg : RunState → Nibble
  | .awaitingKey r => r
  | .running => 0#4
  | .halted _ => 0#4

/-- `awaiting_key`. -/
def RunState.awaitingBit : RunState → Bool
  | .awaitingKey _ => true
  | .running => false
  | .halted _ => false

/-- `halted`. -/
def RunState.haltedBit : RunState → Bool
  | .halted _ => true
  | .running => false
  | .awaitingKey _ => false

/-- `fault_code`: the number of the cause when Halted, else 0. -/
def RunState.faultNumber : RunState → BitVec 3
  | .halted c => c.number
  | .running => 0#3
  | .awaitingKey _ => 0#3

/-- The outputs of a state for a display read address (R281: a read with no side effect). -/
def State.outputs (s : State) (dispX : BitVec 7) (dispY : BitVec 6) : Outputs where
  dtOut := s.DT
  stOut := s.ST
  dispQ := s.disp.cell dispX.toNat dispY.toNat
  dispChanged := s.dispChanged
  awaitingKey := s.run.awaitingBit
  awaitReg := s.run.awaitReg
  halted := s.run.haltedBit
  faultCode := s.run.faultNumber

end Sys2Proof.Machine
end

