-- ==== Sys2Proof/Machine/Loader.lean ====
section
/-! DEFINITION. Placing an opcode for the next step: what the host does with LOAD commands from outside
(46_host_commands.md R277, 70_reset_and_hazards.md R322; log 10). -/

namespace Sys2Proof.Machine

/-- The address the next opcode is fetched from: `pc`, or the entry point when nothing can be fetched at `pc`. -/
def State.fetchAddr (s : State) : Word :=
  if s.pc.toNat > Config.fetchTop then Config.entryPoint else s.pc

/-- `s` with the two bytes of an opcode at the fetch address, most significant first (20_memory.md R61), in
Running, with no command pending, so that the next step is a STEP that runs exactly this opcode. -/
def State.placeOpcode (s : State) (opcode : Opcode) : State :=
  let a := s.fetchAddr
  { s with
    mem := (s.mem.write a.toNat opcode.msb).write (a.toNat + 1) opcode.lsb
    pc := a
    run := .running
    host := [] }

end Sys2Proof.Machine
end

