-- ==== Sys2Proof/Machine/Step.lean ====
section
/-! DEFINITION. The step of the interface: one transaction (46_host_commands.md R271). -/

namespace Sys2Proof.Machine

/-- One transaction of the host, a STEP when its list is empty. -/
def step (s : State) : Host.Outcome State Fault Refusal := runNext s

/-- `s` with a table word stored where the next step fetches, and nothing pending that would keep that step from
being a STEP in Running (log 10). -/
def State.withFetchWord (s : State) (nbits w : Nat) : State := s.placeOpcode (tableOpcode nbits w)

end Sys2Proof.Machine
end

