-- ==== Sys2Proof/Safety.lean ====
section
/-! DEFINITION. What counts as a safe run, and the terms claims about the machine use: the invariant of
10_state.md R43, when an instruction faults (60_exceptions.md R291), where it leaves the pc (10_state.md R26), and
which cells a sprite covers (45_display.md R231 to R233). They are written from those rules, not from the
meanings in Machine/. -/

namespace Sys2Proof.Machine

/-- A state of a run that has not met a fault. A faulted run is never a completed run (60_exceptions.md R297). -/
abbrev State.Unfaulted (s : State) : Prop := ∀ c, s.run ≠ .halted c

/-- The invariant of R43, with RAM in canonical form and STACK_DEPTH at least 1 (00_scope.md R7). -/
abbrev State.Inv (s : State) : Prop :=
  s.mem.wf ∧ 1 ≤ s.stackDepth ∧ s.sp ≤ s.stackDepth ∧ s.pc.toNat ≤ 0x10FE ∧ ∀ v ∈ s.stack, v.toNat ≤ 0x1000

/-- A step from `s` to `t` that leaves every piece of state alone but what the host writes with its own commands, and
those only as the command of this step says: RAM by LOAD, one byte at its address (46_host_commands.md R277), the timers
by TICK (R274), SET_DT and SET_ST (R279), the key vector by SET_KEYS (R276). The model's own fields move on. -/
def State.HostWritesOnly (s t : State) : Prop :=
  t = { s with mem := t.mem, DT := t.DT, ST := t.ST, keys := t.keys, host := s.host.tail, rand := t.rand,
               draws := t.draws, dispChanged := t.dispChanged } ∧
  (t.mem ≠ s.mem → ∃ a b, s.nextCommand = .load a b) ∧
  (s.mem.wf → ∀ a b, s.nextCommand = .load a b → ∀ q, t.byteAt q = if q = a.toNat then b else s.byteAt q) ∧
  (t.DT ≠ s.DT → (s.nextCommand = .tick ∧ t.DT.toNat + 1 = s.DT.toNat) ∨ s.nextCommand = .setDT t.DT) ∧
  (t.ST ≠ s.ST → (s.nextCommand = .tick ∧ t.ST.toNat + 1 = s.ST.toNat) ∨ s.nextCommand = .setST t.ST) ∧
  (t.keys ≠ s.keys → s.nextCommand = .setKeys t.keys)

/-- The fault an instruction raises in a state, by the table of R291 and the order of R294; none when it
executes. -/
def faultCause (i : Instr) (s : State) : Option FaultCode :=
  match i with
  | .ret => if s.sp = 0 then some .stackUnderflow else none
  | .call _ => if s.sp = s.stackDepth then some .stackOverflow else none
  | .storeDecimal _ => if s.I.toNat + 2 > 0xFFF then some .memOutOfRange else none
  | .storeRegisters x => if s.I.toNat + x.toNat > 0xFFF then some .memOutOfRange else none
  | .loadRegisters x => if s.I.toNat + x.toNat > 0xFFF then some .memOutOfRange else none
  | .draw _ _ n => if s.I.toNat + n.toNat - 1 > 0xFFF then some .memOutOfRange else none
  | .drawLarge _ _ =>
    if s.hires = false then some .modeViolation
    else if s.I.toNat + 31 > 0xFFF then some .memOutOfRange else none
  | .storeRegistersRPL x => if x.toNat > 7 then some .rplIndexOutOfRange else none
  | .loadRegistersRPL x => if x.toNat > 7 then some .rplIndexOutOfRange else none
  | .skipIfKey x => if (s.reg x).toNat > 15 then some .keyIndexOutOfRange else none
  | .skipIfNotKey x => if (s.reg x).toNat > 15 then some .keyIndexOutOfRange else none
  | .scrollRight => if s.hires = false then some .modeViolation else none
  | .scrollLeft => if s.hires = false then some .modeViolation else none
  | .scrollDown _ => if s.hires = false then some .modeViolation else none
  | .clearScreen | .highResolutionOff | .highResolutionOn | .jump _ | .skipIfEqualImm _ _
  | .skipIfUnequalImm _ _ | .skipIfEqualReg _ _ | .loadImm _ _ | .addInPlace _ _ | .loadReg _ _ | .orReg _ _
  | .andReg _ _ | .xorReg _ _ | .add _ _ | .sub _ _ | .shiftRight _ | .subReverse _ _ | .shiftLeft _
  | .skipIfUnequalReg _ _ | .setPointer _ | .jumpPlus _ | .random _ _ | .getTimer _ | .keyBlock _
  | .setTimer _ | .setSound _ | .addPointer _ | .getDigit _ | .invalid => none

/-- The pc an instruction leaves that executes without a fault, by the table of R26, as a number. -/
def pcAfter (i : Instr) (s : State) : Nat :=
  match i with
  | .jump a => a.toNat
  | .jumpPlus a => a.toNat + (s.reg (a.extractLsb' 8 4)).toNat
  | .call a => a.toNat
  | .ret => (s.stack.headD 0#16).toNat
  | .skipIfEqualImm x k => if s.reg x = k then s.pc.toNat + 4 else s.pc.toNat + 2
  | .skipIfUnequalImm x k => if s.reg x ≠ k then s.pc.toNat + 4 else s.pc.toNat + 2
  | .skipIfEqualReg x y => if s.reg x = s.reg y then s.pc.toNat + 4 else s.pc.toNat + 2
  | .skipIfUnequalReg x y => if s.reg x ≠ s.reg y then s.pc.toNat + 4 else s.pc.toNat + 2
  | .skipIfKey x => if s.keys.getLsbD (s.reg x).toNat = true then s.pc.toNat + 4 else s.pc.toNat + 2
  | .skipIfNotKey x => if s.keys.getLsbD (s.reg x).toNat = false then s.pc.toNat + 4 else s.pc.toNat + 2
  | .clearScreen | .scrollRight | .scrollLeft | .highResolutionOff | .highResolutionOn | .scrollDown _
  | .loadImm _ _ | .addInPlace _ _ | .loadReg _ _ | .orReg _ _ | .andReg _ _ | .xorReg _ _ | .add _ _
  | .sub _ _ | .shiftRight _ | .subReverse _ _ | .shiftLeft _ | .setPointer _ | .random _ _ | .drawLarge _ _
  | .draw _ _ _ | .getTimer _ | .keyBlock _ | .setTimer _ | .setSound _ | .addPointer _ | .getDigit _
  | .storeDecimal _ | .storeRegisters _ | .loadRegisters _ | .storeRegistersRPL _ | .loadRegistersRPL _
  | .invalid => s.pc.toNat + 2

/-- A sprite of `rows` rows and `cols` columns, pixel `(r, c)` lit as `bit` says, at origin `(x0, y0)`, covers cell
`(gx, gy)` of the grid when the cell belongs to the logical pixel a lit pixel lands on: a cell belongs to the
logical pixel whose coordinates are its own divided by the scale (R231). -/
def SpriteCovers (scale : Nat) (bit : Nat → Nat → Bool) (rows cols x0 y0 gx gy : Nat) : Prop :=
  ∃ r c, r < rows ∧ c < cols ∧ bit r c = true ∧ gx / scale = x0 + c ∧ gy / scale = y0 + r

/-- Pixel `(r, c)` of the 8-column sprite at `I`: bit `7 - c` of the byte at `I + r` (R234, R236). -/
def State.spriteBit (s : State) (r c : Nat) : Bool := (s.byteAt (s.I.toNat + r)).getLsbD (7 - c)

/-- Pixel `(r, c)` of the 16-column sprite at `I`: bit `7 - c mod 8` of the byte at `I + 2r + c / 8` (R240). -/
def State.largeSpriteBit (s : State) (r c : Nat) : Bool :=
  (s.byteAt (s.I.toNat + (2 * r + c / 8))).getLsbD (7 - c % 8)

/-- The cells Draw covers in the active mode (45_display.md R230, R232, R236): scale 1 and 128 x 64 in High mode, scale
2 and 64 x 32 in Low mode, the origin reduced into that screen. -/
def State.drawCovers (s : State) (x y : RegIx) (n : Nibble) (gx gy : Nat) : Prop :=
  SpriteCovers (if s.hires then 1 else 2) s.spriteBit n.toNat 8
    ((s.reg x).toNat % (if s.hires then 128 else 64)) ((s.reg y).toNat % (if s.hires then 64 else 32)) gx gy

/-- The cells DrawLarge covers (R240): 16 rows of 16 pixels in the coordinates of High mode. -/
def State.drawLargeCovers (s : State) (x y : RegIx) (gx gy : Nat) : Prop :=
  SpriteCovers 1 s.largeSpriteBit 16 16 ((s.reg x).toNat % 128) ((s.reg y).toNat % 64) gx gy

end Sys2Proof.Machine
end

