-- ==== Sys2Proof/Certificates/Slice0/Obligations.lean ====
section
/-! DEFINITION. The statements for the provers, from the numbered rules of spec/. A frame is written
`t = { s with … }`: every field of State not named there is unchanged, RAM among them (so every byte reads as
before) unless `mem` is named. -/

open Sys2Proof Sys2Proof.Machine

/-! ## Encoding (30_encoding.md) -/

/-- R96, R105: decoding the canonical opcode of an instruction, as an opcode or as its two bytes, gives the
instruction back, with every operand at every value. -/
def Obligations.DecodeUndoesEncode : Prop :=
  ∀ i : Instr, i.WellFormed →
    decode (encode i) = i ∧ ∀ rest, decodeBytes ((encode i).msb :: (encode i).lsb :: rest) = .ok (i, rest)

/-- R97: encoding what an opcode decodes to gives the opcode with its ignored bits cleared, so no used bit is
dropped or read as another instruction's. Which bits are ignored is the spec's own choice (D16). Invalid opcodes,
whose bits are all ignored, encode to 0x0000, the model's choice (log 11). -/
def Obligations.EncodeClearsIgnoredBits : Prop :=
  ∀ w : Opcode, encode (decode w) = w &&& (decode w).usedBits

/-- R102, R95: whatever the opcode, what it decodes to is a well-formed instruction and stands on the row the opcode
table selects, the first row with `opcode & mask = match` whose except condition does not hold. -/
def Obligations.DecodeFollowsOpcodeTable : Prop :=
  ∀ w : Opcode, (decode w).WellFormed ∧ (decode w).row = tableRow w

/-- The table of R98: which opcodes are Invalid, group by group. That `x` is not tested in group 0x0 is the spec's own
choice (D16). -/
def Obligations.InvalidOpcodesByGroup : Prop :=
  ∀ w : Opcode, decode w = .invalid ↔
    (w.group = 0x0#4 ∧ w.byte ∉ [0xE0#8, 0xEE#8, 0xFB#8, 0xFC#8, 0xFE#8, 0xFF#8] ∧ w.y ≠ 0xC#4) ∨
    (w.group = 0x8#4 ∧ w.nibble ∈ [0x8#4, 0x9#4, 0xA#4, 0xB#4, 0xC#4, 0xD#4, 0xF#4]) ∨
    (w.group = 0xE#4 ∧ w.byte ∉ [0x9E#8, 0xA1#8]) ∨
    (w.group = 0xF#4 ∧ w.byte ∉ [0x07#8, 0x0A#8, 0x15#8, 0x18#8, 0x1E#8, 0x29#8, 0x33#8, 0x55#8, 0x65#8,
      0x75#8, 0x85#8])

/-- R97, the spec's own choice (D16): two opcodes that agree on the bits used by the instruction of the first are the
same instruction. -/
def Obligations.IgnoredBitsDoNotMatter : Prop :=
  ∀ w w' : Opcode, decode w ≠ .invalid → w' &&& (decode w).usedBits = w &&& (decode w).usedBits →
    decode w' = decode w

/-- R103: the decodings the source gives with the rows of R96 they select, and one opcode of other families. -/
def Obligations.WorkedDecodings : Prop :=
  decode (Opcode.ofBytes 0x00#8 0xE0#8) = .clearScreen ∧
  decode (Opcode.ofBytes 0x12#8 0x34#8) = .jump 0x234#12 ∧
  decode (Opcode.ofBytes 0xA2#8 0x34#8) = .setPointer 0x234#12 ∧
  tableRow 0x00E0#16 = 1 ∧ tableRow 0x1234#16 = 8 ∧ tableRow 0xA234#16 = 25 ∧
  decode (Opcode.ofBytes 0x81#8 0x27#8) = .subReverse 0x1#4 0x2#4 ∧
  decode (Opcode.ofBytes 0xF3#8 0x0A#8) = .keyBlock 0x3#4 ∧
  decode (Opcode.ofBytes 0xD1#8 0x2F#8) = .draw 0x1#4 0x2#4 0xF#4

/-! ## The step (40_step_and_dispatch.md) -/

/-- R120, R121, R123, R125: in Running, with an opcode in RAM at `pc`, a step is the instruction the two bytes
there decode to, executed in that state. The model's input fields first take this STEP's random byte, a free value
when the host's list is empty, or the byte of the STEP at its head (the model's choice, logs 4 and 5); afterwards the
field of the output `disp_changed` is set (R129, D19; log 7). The fetch bound 0xFFE is the spec's own (D8). -/
def Obligations.StepRunsDecodedInstruction : Prop :=
  ∀ s : State, s.run = .running → s.pc.toNat ≤ 0xFFE →
    (s.host = [] → ∃ t,
      exec (decode (Opcode.ofBytes (s.byteAt s.pc.toNat) (s.byteAt (s.pc.toNat + 1))))
        { s with rand := Config.freeRand s.draws, draws := s.draws + 1 } = .next t ∧
      step s = .next { t with dispChanged := decide (s.disp ≠ t.disp) }) ∧
    (∀ r rest, s.host = .step r :: rest → ∃ t,
      exec (decode (Opcode.ofBytes (s.byteAt s.pc.toNat) (s.byteAt (s.pc.toNat + 1))))
        { s with rand := r, host := rest } = .next t ∧
      step s = .next { t with dispChanged := decide (s.disp ≠ t.disp) })

/-- R121 (D8): a STEP in Running with `pc > 0xFFE` raises FetchOutOfRange and changes nothing else. -/
def Obligations.FetchPastRamFaults : Prop :=
  ∀ (s : State) (r : Byte), s.run = .running → 0xFFE < s.pc.toNat →
    transact (.step r) s = .next { s with rand := r, run := .halted .fetchOutOfRange }

/-- R120: a STEP while AwaitingKey or Halted changes no state of the machine; only the model's `rand` port field
takes the byte presented (log 4). For Halted that is the spec's own choice (D20). -/
def Obligations.StepIgnoredUnlessRunning : Prop :=
  ∀ (s : State) (r : Byte), s.run ≠ .running → transact (.step r) s = .next { s with rand := r }

/-- R126, R296, R292: every step of every state, whatever the host presents, answers a next state: the hardware's
faults are taken (the spec's own fault model, D7; log 6), and nothing is refused. -/
def Obligations.EveryStepAnswersNext : Prop :=
  ∀ s : State, ∃ t, step s = .next t

/-! ## Invariants -/

/-- R43: every step keeps the invariant, whatever command the host presents. RAM keeps its canonical form; `sp`
stays within STACK_DEPTH; `pc` stays at most 0x10FE; every stack entry stays at most 0x1000. -/
def Obligations.StepKeepsInvariant : Prop :=
  ∀ s t : State, s.Inv → step s = .next t → t.Inv

/-- R43: the invariant holds after reset, for every STACK_DEPTH of at least 1, every canonical RAM and every RPL
contents, and in State.reset in particular (whose RAM, RPL and depth are the model's choice, logs 1 to 3). -/
def Obligations.ResetHasInvariant : Prop :=
  State.reset.Inv ∧
  ∀ (depth : Nat) (mem : Memory) (rpl : Vector Byte 8), 1 ≤ depth → mem.wf → (State.afterReset depth mem rpl).Inv

/-! ## Faults (60_exceptions.md) -/

/-- R296, the spec's own fault model (D7): an instruction that ends Halted, from a state that was Running, has changed
`run` and nothing else. -/
def Obligations.FaultChangesOnlyRun : Prop :=
  ∀ (i : Instr) (s t : State) (c : FaultCode), s.run = .running → exec i s = .next t → t.run = .halted c →
    t = { s with run := .halted c }

/-- R291, R292, R294: an instruction executed in Running raises exactly the fault of the table, and none when the
table gives none; DrawLarge in Low mode reports ModeViolation whatever `I` holds. All causes but StackUnderflow, and
their order, are the spec's own (D6, D8, D10 to D13, D29). `sp ≤ STACK_DEPTH` is a clause of the invariant of R43. -/
def Obligations.FaultsAreExactlyTheListedCauses : Prop :=
  ∀ (i : Instr) (s : State), i.WellFormed → s.run = .running → s.sp ≤ s.stackDepth →
    ∃ t, exec i s = .next t ∧ ∀ c, (t.run = .halted c ↔ faultCause i s = some c)

/-- R297, the spec's own choice (D7, D20): a step from Halted(c), unless it is RESET, stays in Halted(c), and changes
only what its host command writes: RAM by LOAD, at its address, the timers by TICK, SET_DT and SET_ST, the key vector by
SET_KEYS, and the model's own fields. That those commands act in Halted too is the spec's own choice (D21, D24, D25,
D28). -/
def Obligations.HaltedLeftOnlyByReset : Prop :=
  ∀ (s t : State) (c : FaultCode), s.run = .halted c → s.nextCommand ≠ .reset → step s = .next t →
    s.HostWritesOnly t

/-- R304, R275: a step from AwaitingKey(r) that is neither KEY_RESOLVE nor RESET stays in AwaitingKey(r), and changes
only what its host command writes: RAM by LOAD, at its address, the timers by TICK, SET_DT and SET_ST, the key vector by
SET_KEYS, and the model's own fields. That those commands act here too is the spec's own choice (D21, D24, D25, D28). -/
def Obligations.KeyBlockLeftOnlyByResolveOrReset : Prop :=
  ∀ (s t : State) (r : RegIx), s.run = .awaitingKey r → s.nextCommand ≠ .reset →
    (∀ k, s.nextCommand ≠ .keyResolve k) → step s = .next t → s.HostWritesOnly t

/-! ## Whole-machine rules (10_state.md) -/

/-- R26: where every instruction that executes leaves the pc. R296: a fault leaves it unchanged, the spec's own choice
(D7, C11; log 12). -/
def Obligations.PcAfterEveryInstruction : Prop :=
  ∀ (i : Instr) (s t : State), s.sp ≤ s.stackDepth → s.pc.toNat ≤ 0xFFE → exec i s = .next t →
    (faultCause i s = none → t.pc.toNat = pcAfter i s) ∧ (∀ c, faultCause i s = some c → t.pc = s.pc)

/-- R31: no instruction but HighResolutionOff and HighResolutionOn changes the mode. -/
def Obligations.OnlyHighResolutionChangesMode : Prop :=
  ∀ (i : Instr) (s t : State), exec i s = .next t → t.hires ≠ s.hires →
    (i = .highResolutionOff ∧ t.hires = false) ∨ (i = .highResolutionOn ∧ t.hires = true)

/-- R28: no instruction but SetPointer, AddPointer and GetDigit changes `I`. -/
def Obligations.OnlyPointerInstructionsChangeI : Prop :=
  ∀ (i : Instr) (s t : State), exec i s = .next t → t.I ≠ s.I →
    (∃ a, i = .setPointer a) ∨ (∃ x, i = .addPointer x) ∨ (∃ x, i = .getDigit x)

/-- R34, R37: only Call and Return change the call stack, and only StoreRegistersRPL the RPL store. -/
def Obligations.OnlyTheirInstructionsChangeStackAndRpl : Prop :=
  ∀ (i : Instr) (s t : State), exec i s = .next t →
    (t.stack ≠ s.stack → i = .ret ∨ ∃ a, i = .call a) ∧
    (t.RPL ≠ s.RPL → ∃ x, i = .storeRegistersRPL x)

/-- R66: no instruction but StoreDecimal and StoreRegisters changes a byte of RAM, and those two change only the
three bytes from `I`, respectively the `x + 1` bytes from `I`. -/
def Obligations.OnlyStoresChangeRam : Prop :=
  ∀ (i : Instr) (s t : State), s.mem.wf → exec i s = .next t → ∀ a, t.byteAt a ≠ s.byteAt a →
    (∃ x, i = .storeDecimal x ∧ s.ea 0 ≤ a ∧ a < s.ea 3) ∨
    (∃ x, i = .storeRegisters x ∧ s.ea 0 ≤ a ∧ a ≤ s.ea x.toNat)

/-- R39: no instruction but ClearScreen, Draw, DrawLarge, ScrollRight, ScrollLeft and ScrollDown changes a cell. -/
def Obligations.OnlyDisplayInstructionsChangeGrid : Prop :=
  ∀ (i : Instr) (s t : State), exec i s = .next t → t.disp ≠ s.disp →
    i = .clearScreen ∨ i = .scrollRight ∨ i = .scrollLeft ∨ (∃ n, i = .scrollDown n) ∨
    (∃ x y, i = .drawLarge x y) ∨ (∃ x y n, i = .draw x y n)

/-- R24: V[15] changes only by one of the seven side-effect writers, or as an ordinary destination. The seven write
0x00 or 0x01 there unless V[15] is also their destination `x`, whose write is then the later one (D14). -/
def Obligations.FlagRegisterWriters : Prop :=
  ∀ (i : Instr) (s t : State), exec i s = .next t → t.reg 0xF#4 ≠ s.reg 0xF#4 →
    ((t.reg 0xF#4 = 0x00#8 ∨ t.reg 0xF#4 = 0x01#8) ∧
      ((∃ x y, i = .add x y ∨ i = .sub x y ∨ i = .subReverse x y) ∨
       (∃ x, i = .shiftRight x ∨ i = .shiftLeft x) ∨
       (∃ x y, i = .drawLarge x y) ∨ (∃ x y n, i = .draw x y n))) ∨
    (∃ y, i = .loadReg 0xF#4 y ∨ i = .orReg 0xF#4 y ∨ i = .andReg 0xF#4 y ∨ i = .xorReg 0xF#4 y ∨
          i = .add 0xF#4 y ∨ i = .sub 0xF#4 y ∨ i = .subReverse 0xF#4 y) ∨
    (∃ k, i = .loadImm 0xF#4 k ∨ i = .addInPlace 0xF#4 k ∨ i = .random 0xF#4 k) ∨
    i = .shiftRight 0xF#4 ∨ i = .shiftLeft 0xF#4 ∨ i = .getTimer 0xF#4 ∨ i = .loadRegisters 0xF#4

/-- R29, R30, R33, R41: no instruction changes the key vector, STACK_DEPTH or the model's own fields; only
SetTimer changes `DT` and only SetSound changes `ST`. -/
def Obligations.TimersKeysAndInputsFrame : Prop :=
  ∀ (i : Instr) (s t : State), exec i s = .next t →
    t.keys = s.keys ∧ t.stackDepth = s.stackDepth ∧ t.host = s.host ∧ t.rand = s.rand ∧ t.draws = s.draws ∧
    t.dispChanged = s.dispChanged ∧ (t.DT ≠ s.DT → ∃ x, i = .setTimer x) ∧ (t.ST ≠ s.ST → ∃ x, i = .setSound x)

/-! ## Control flow (41_control_flow.md) -/

/-- R140, R141: Jump and JumpPlus execute in every state, set the pc, and change nothing else. -/
def Obligations.JumpsSetOnlyPc : Prop :=
  ∀ (a : Addr12) (s : State),
    (∃ t, exec (.jump a) s = .next t ∧ t = { s with pc := t.pc } ∧ t.pc.toNat = a.toNat) ∧
    (∃ t, exec (.jumpPlus a) s = .next t ∧ t = { s with pc := t.pc } ∧
      t.pc.toNat = a.toNat + (s.reg (BitVec.ofNat 4 (a.toNat / 256))).toNat)

/-- R142: with room on the stack, Call pushes the address of the next opcode and jumps; with none it raises
StackOverflow (D6) and changes nothing else. -/
def Obligations.CallPushesReturnAddress : Prop :=
  ∀ (a : Addr12) (s : State),
    (s.sp < s.stackDepth → ∃ t, exec (.call a) s = .next t ∧ t = { s with stack := t.stack, pc := t.pc } ∧
      t.stack = (s.pc + 2#16) :: s.stack ∧ t.sp = s.sp + 1 ∧ t.pc.toNat = a.toNat) ∧
    (s.sp = s.stackDepth → exec (.call a) s = .next { s with run := .halted .stackOverflow })

/-- R143, R36: with an entry on the stack, Return removes the most recent one into the pc; with none it raises
StackUnderflow and changes nothing else. -/
def Obligations.ReturnPopsIntoPc : Prop :=
  ∀ s : State,
    (∀ v rest, s.stack = v :: rest →
      exec .ret s = .next { s with pc := v, stack := rest }) ∧
    (s.sp = 0 → exec .ret s = .next { s with run := .halted .stackUnderflow })

/-- R142, R143: a Call followed by a Return comes back to the opcode after the Call, with every other piece of
state as before the Call. -/
def Obligations.ReturnUndoesCall : Prop :=
  ∀ (a : Addr12) (s : State), s.sp < s.stackDepth →
    ∃ t u, exec (.call a) s = .next t ∧ exec .ret t = .next u ∧ u = { s with pc := s.pc + 2#16 }

/-- R144 to R147: the four compare skips execute in every state and change only the pc: by 4 when the condition
holds, by 2 when it does not. -/
def Obligations.CompareSkipsAdvanceTwoOrFour : Prop :=
  ∀ (x y : RegIx) (k : Byte) (s : State),
    exec (.skipIfEqualImm x k) s = .next { s with pc := s.pc + (if s.reg x = k then 4#16 else 2#16) } ∧
    exec (.skipIfUnequalImm x k) s = .next { s with pc := s.pc + (if s.reg x = k then 2#16 else 4#16) } ∧
    exec (.skipIfEqualReg x y) s = .next { s with pc := s.pc + (if s.reg x = s.reg y then 4#16 else 2#16) } ∧
    exec (.skipIfUnequalReg x y) s = .next { s with pc := s.pc + (if s.reg x = s.reg y then 2#16 else 4#16) }

/-- R128: Invalid executes in every state and only advances the pc. -/
def Obligations.InvalidIsNoOp : Prop :=
  ∀ s : State, exec .invalid s = .next { s with pc := s.pc + 2#16 }

/-! ## Loads, ALU, Random (42_arithmetic.md) -/

/-- R162, R164: LoadImm and LoadReg execute in every state, write V[x], and touch no other register (no flag),
whatever `x` is. -/
def Obligations.LoadsWriteTheirRegister : Prop :=
  ∀ (x y : RegIx) (k : Byte) (s : State),
    (∃ t, exec (.loadImm x k) s = .next t ∧ t = { s with V := t.V, pc := s.pc + 2#16 } ∧
      t.reg x = k ∧ ∀ r, r ≠ x → t.reg r = s.reg r) ∧
    (∃ t, exec (.loadReg x y) s = .next t ∧ t = { s with V := t.V, pc := s.pc + 2#16 } ∧
      t.reg x = s.reg y ∧ ∀ r, r ≠ x → t.reg r = s.reg r)

/-- R165, R166, R167: Or, And and Xor execute in every state, write V[x] bit by bit, and touch no other register
(no flag). -/
def Obligations.BitwiseOperations : Prop :=
  ∀ (x y : RegIx) (s : State),
    (∃ t, exec (.orReg x y) s = .next t ∧ t = { s with V := t.V, pc := s.pc + 2#16 } ∧
      (∀ j < 8, (t.reg x).getLsbD j = ((s.reg x).getLsbD j || (s.reg y).getLsbD j)) ∧
      ∀ r, r ≠ x → t.reg r = s.reg r) ∧
    (∃ t, exec (.andReg x y) s = .next t ∧ t = { s with V := t.V, pc := s.pc + 2#16 } ∧
      (∀ j < 8, (t.reg x).getLsbD j = ((s.reg x).getLsbD j && (s.reg y).getLsbD j)) ∧
      ∀ r, r ≠ x → t.reg r = s.reg r) ∧
    (∃ t, exec (.xorReg x y) s = .next t ∧ t = { s with V := t.V, pc := s.pc + 2#16 } ∧
      (∀ j < 8, (t.reg x).getLsbD j = ((s.reg x).getLsbD j ^^ (s.reg y).getLsbD j)) ∧
      ∀ r, r ≠ x → t.reg r = s.reg r)

/-- R168, R160, R163: Add and AddInPlace execute in every state; V[x] is the sum modulo 256. Add writes the carry to
V[15] when that is not V[x]; with `x = 15` its sum survives, an order that is the spec's own choice (R161, D14).
AddInPlace touches no other register (no flag); that it wraps is the spec's inference. -/
def Obligations.AdditionsWriteSumAndCarry : Prop :=
  ∀ (x y : RegIx) (k : Byte) (s : State),
    (∃ t, exec (.add x y) s = .next t ∧ t = { s with V := t.V, pc := s.pc + 2#16 } ∧
      (t.reg x).toNat = ((s.reg x).toNat + (s.reg y).toNat) % 256 ∧
      (x ≠ 0xF#4 → (t.reg 0xF#4).toNat = if (s.reg x).toNat + (s.reg y).toNat > 255 then 1 else 0) ∧
      ∀ r, r ≠ x → r ≠ 0xF#4 → t.reg r = s.reg r) ∧
    (∃ t, exec (.addInPlace x k) s = .next t ∧ t = { s with V := t.V, pc := s.pc + 2#16 } ∧
      (t.reg x).toNat = ((s.reg x).toNat + k.toNat) % 256 ∧ ∀ r, r ≠ x → t.reg r = s.reg r)

/-- R169, R171, R160: Sub and SubReverse execute in every state; V[x] is the difference modulo 256, and V[15], when
it is not V[x], is 1 exactly when the minuend is at least the subtrahend. With `x = 15` the difference survives:
that order is the spec's own choice (R161, D14). -/
def Obligations.SubtractionsWriteNotBorrow : Prop :=
  ∀ (x y : RegIx) (s : State),
    (∃ t, exec (.sub x y) s = .next t ∧ t = { s with V := t.V, pc := s.pc + 2#16 } ∧
      ((t.reg x).toNat : Int) = ((s.reg x).toNat - (s.reg y).toNat : Int) % 256 ∧
      (x ≠ 0xF#4 → (t.reg 0xF#4).toNat = if (s.reg x).toNat ≥ (s.reg y).toNat then 1 else 0) ∧
      ∀ r, r ≠ x → r ≠ 0xF#4 → t.reg r = s.reg r) ∧
    (∃ t, exec (.subReverse x y) s = .next t ∧ t = { s with V := t.V, pc := s.pc + 2#16 } ∧
      ((t.reg x).toNat : Int) = ((s.reg y).toNat - (s.reg x).toNat : Int) % 256 ∧
      (x ≠ 0xF#4 → (t.reg 0xF#4).toNat = if (s.reg y).toNat ≥ (s.reg x).toNat then 1 else 0) ∧
      ∀ r, r ≠ x → r ≠ 0xF#4 → t.reg r = s.reg r)

/-- R170, R172, R161: the shifts execute in every state; V[x] is half, respectively twice modulo 256, its value,
and V[15], when it is not V[x], is the bit shifted out; with `x = 15` the shifted value survives. -/
def Obligations.ShiftsWriteTheBitShiftedOut : Prop :=
  ∀ (x : RegIx) (s : State),
    (∃ t, exec (.shiftRight x) s = .next t ∧ t = { s with V := t.V, pc := s.pc + 2#16 } ∧
      (t.reg x).toNat = (s.reg x).toNat / 2 ∧
      (x ≠ 0xF#4 → (t.reg 0xF#4).toNat = (s.reg x).toNat % 2) ∧
      ∀ r, r ≠ x → r ≠ 0xF#4 → t.reg r = s.reg r) ∧
    (∃ t, exec (.shiftLeft x) s = .next t ∧ t = { s with V := t.V, pc := s.pc + 2#16 } ∧
      (t.reg x).toNat = (s.reg x).toNat * 2 % 256 ∧
      (x ≠ 0xF#4 → (t.reg 0xF#4).toNat = (s.reg x).toNat / 128) ∧
      ∀ r, r ≠ x → r ≠ 0xF#4 → t.reg r = s.reg r)

/-- R176: Random executes in every state and writes the byte on the `rand` port, whatever it is, ANDed with the mask;
no flag. That the byte is an input under no law is the spec's own choice (D22; the field `rand` is log 4). -/
def Obligations.RandomMasksThePortByte : Prop :=
  ∀ (x : RegIx) (k : Byte) (s : State), ∃ t, exec (.random x k) s = .next t ∧
    t = { s with V := t.V, pc := s.pc + 2#16 } ∧
    (∀ j < 8, (t.reg x).getLsbD j = (s.rand.getLsbD j && k.getLsbD j)) ∧ ∀ r, r ≠ x → t.reg r = s.reg r

/-! ## Pointer, decimal, bulk transfers (43_pointer_and_memory.md) -/

/-- R191, R192, R193: the three pointer instructions execute in every state and write `I` only. That AddPointer
wraps modulo 65536, and that GetDigit multiplies the whole byte, is the spec's own choice (D15, D32). -/
def Obligations.PointerInstructionsWriteI : Prop :=
  ∀ (a : Addr12) (x : RegIx) (s : State),
    (∃ t, exec (.setPointer a) s = .next t ∧ t = { s with I := t.I, pc := s.pc + 2#16 } ∧ t.I.toNat = a.toNat) ∧
    (∃ t, exec (.addPointer x) s = .next t ∧ t = { s with I := t.I, pc := s.pc + 2#16 } ∧
      t.I.toNat = (s.I.toNat + (s.reg x).toNat) % 65536) ∧
    (∃ t, exec (.getDigit x) s = .next t ∧ t = { s with I := t.I, pc := s.pc + 2#16 } ∧
      t.I.toNat = 5 * (s.reg x).toNat)

/-- R194: when `I + 2` is a RAM address, StoreDecimal writes hundreds, tens and ones to `I`, `I + 1`, `I + 2`, and
changes no other byte and nothing else but the pc; otherwise it raises MemOutOfRange (D10) and changes nothing else. -/
def Obligations.StoreDecimalWritesThreeDigits : Prop :=
  ∀ (x : RegIx) (s : State), s.mem.wf →
    (s.ea 2 ≤ 0xFFF → ∃ t, exec (.storeDecimal x) s = .next t ∧ t = { s with mem := t.mem, pc := s.pc + 2#16 } ∧
      (t.byteAt (s.ea 0)).toNat = (s.reg x).toNat / 100 ∧
      (t.byteAt (s.ea 1)).toNat = (s.reg x).toNat / 10 % 10 ∧
      (t.byteAt (s.ea 2)).toNat = (s.reg x).toNat % 10 ∧
      ∀ a, a ≠ s.ea 0 → a ≠ s.ea 1 → a ≠ s.ea 2 → t.byteAt a = s.byteAt a) ∧
    (0xFFF < s.ea 2 → exec (.storeDecimal x) s = .next { s with run := .halted .memOutOfRange })

/-- R195: when `I + x` is a RAM address, StoreRegisters writes V[i] to `I + i` for i = 0 to x, and changes no other
byte and nothing else but the pc; otherwise it raises MemOutOfRange (D10) and changes nothing else. -/
def Obligations.StoreRegistersWritesRange : Prop :=
  ∀ (x : RegIx) (s : State), s.mem.wf →
    (s.ea x.toNat ≤ 0xFFF → ∃ t, exec (.storeRegisters x) s = .next t ∧
      t = { s with mem := t.mem, pc := s.pc + 2#16 } ∧
      (∀ r : RegIx, r.toNat ≤ x.toNat → t.byteAt (s.ea r.toNat) = s.reg r) ∧
      ∀ a, a < s.ea 0 ∨ s.ea x.toNat < a → t.byteAt a = s.byteAt a) ∧
    (0xFFF < s.ea x.toNat → exec (.storeRegisters x) s = .next { s with run := .halted .memOutOfRange })

/-- R196: when `I + x` is a RAM address, LoadRegisters loads V[i] from `I + i` for i = 0 to x, and changes no other
register and nothing else but the pc; otherwise it raises MemOutOfRange (D10) and changes nothing else. -/
def Obligations.LoadRegistersReadsRange : Prop :=
  ∀ (x : RegIx) (s : State),
    (s.ea x.toNat ≤ 0xFFF → ∃ t, exec (.loadRegisters x) s = .next t ∧
      t = { s with V := t.V, pc := s.pc + 2#16 } ∧
      ∀ r : RegIx, t.reg r = if r.toNat ≤ x.toNat then s.byteAt (s.ea r.toNat) else s.reg r) ∧
    (0xFFF < s.ea x.toNat → exec (.loadRegisters x) s = .next { s with run := .halted .memOutOfRange })

/-- R195 to R197, the source's round-trip law: StoreRegisters, then any change of the registers, then LoadRegisters
with the same `x` restores V[0] to V[x]. That both leave `I` unchanged is the spec's reading (D31). -/
def Obligations.LoadAfterStoreRestoresRegisters : Prop :=
  ∀ (x : RegIx) (s : State) (corrupted : Vector Byte 16), s.mem.wf → s.ea x.toNat ≤ 0xFFF →
    ∃ t u, exec (.storeRegisters x) s = .next t ∧ exec (.loadRegisters x) { t with V := corrupted } = .next u ∧
      (∀ r : RegIx, r.toNat ≤ x.toNat → u.reg r = s.reg r) ∧ u.I = s.I

/-- R198, R199: for `x` at most 7 the RPL transfers copy slots 0 to x between V and RPL, and change no other slot or
register and nothing else but the pc; for `x` above 7 they raise RplIndexOutOfRange (D11) and change nothing else. -/
def Obligations.RplTransfersCopyRange : Prop :=
  ∀ (x : RegIx) (s : State),
    (x.toNat ≤ 7 →
      (∃ t, exec (.storeRegistersRPL x) s = .next t ∧ t = { s with RPL := t.RPL, pc := s.pc + 2#16 } ∧
        ∀ (i : Nat) (h : i < 8), t.RPL[i] = if i ≤ x.toNat then s.V[i] else s.RPL[i]) ∧
      (∃ t, exec (.loadRegistersRPL x) s = .next t ∧ t = { s with V := t.V, pc := s.pc + 2#16 } ∧
        (∀ (i : Nat) (h : i < 8), i ≤ x.toNat → t.V[i] = s.RPL[i]) ∧
        ∀ (i : Nat) (h : i < 16), x.toNat < i → t.V[i] = s.V[i])) ∧
    (7 < x.toNat →
      exec (.storeRegistersRPL x) s = .next { s with run := .halted .rplIndexOutOfRange } ∧
      exec (.loadRegistersRPL x) s = .next { s with run := .halted .rplIndexOutOfRange })

/-! ## Timers and keys (44_timers_and_keys.md) -/

/-- R210, R211, R212: the timer instructions execute in every state; GetTimer copies DT into V[x], SetTimer and
SetSound copy V[x] into DT and ST; nothing else changes but the pc. -/
def Obligations.TimerInstructionsCopy : Prop :=
  ∀ (x : RegIx) (s : State),
    (∃ t, exec (.getTimer x) s = .next t ∧ t = { s with V := t.V, pc := s.pc + 2#16 } ∧
      t.reg x = s.DT ∧ ∀ r, r ≠ x → t.reg r = s.reg r) ∧
    exec (.setTimer x) s = .next { s with DT := s.reg x, pc := s.pc + 2#16 } ∧
    exec (.setSound x) s = .next { s with ST := s.reg x, pc := s.pc + 2#16 }

/-- R213, R214: with V[x] at most 15, SkipIfKey advances the pc by 4 when key V[x] is pressed and by 2 when it is
not, SkipIfNotKey the other way round, and nothing else changes. That the key tested is the one V[x] names, and that
the skip is the extra 2, is the spec's own inference (44_timers_and_keys.md section 2, N19). Above 15 both raise
KeyIndexOutOfRange, the spec's own choice (D12). -/
def Obligations.KeySkipsTestTheNamedKey : Prop :=
  ∀ (x : RegIx) (s : State),
    ((s.reg x).toNat ≤ 15 →
      exec (.skipIfKey x) s =
        .next { s with pc := s.pc + (if s.keys.getLsbD (s.reg x).toNat then 4#16 else 2#16) } ∧
      exec (.skipIfNotKey x) s =
        .next { s with pc := s.pc + (if s.keys.getLsbD (s.reg x).toNat then 2#16 else 4#16) }) ∧
    (15 < (s.reg x).toNat →
      exec (.skipIfKey x) s = .next { s with run := .halted .keyIndexOutOfRange } ∧
      exec (.skipIfNotKey x) s = .next { s with run := .halted .keyIndexOutOfRange })

/-- R215, R120, R275: KeyBlock executes in every state and suspends on register `x`; every STEP is then ignored;
KEY_RESOLVE writes the key index into V[x] and resumes after the KeyBlock; no other command but RESET ends the wait,
whatever keys are held (D28) or reported (D21, D24, D25). -/
def Obligations.KeyBlockSuspendsUntilResolve : Prop :=
  ∀ (x : RegIx) (s : State), ∃ t, exec (.keyBlock x) s = .next t ∧
    t = { s with run := .awaitingKey x, pc := s.pc + 2#16 } ∧
    (∀ r, transact (.step r) t = .next { t with rand := r }) ∧
    (∀ c, c = .idle ∨ c = .tick ∨ (∃ v, c = .setKeys v) ∨ (∃ a b, c = .load a b) ∨ (∃ b, c = .setDT b) ∨
      (∃ b, c = .setST b) → ∃ u, transact c t = .next u ∧ u.run = .awaitingKey x ∧ u.V = t.V) ∧
    ∀ k, ∃ u, transact (.keyResolve k) t = .next u ∧
      u = { s with V := u.V, run := .running, pc := s.pc + 2#16 } ∧
      (u.reg x).toNat = k.toNat ∧ ∀ q, q ≠ x → u.reg q = s.reg q

/-! ## Display (45_display.md) -/

/-- R236, R230 to R235, R237: when the sprite's bytes lie in RAM, Draw flips exactly the cells of the grid its lit,
unclipped pixels cover in the active mode, sets V[15] to 1 when one of those was lit and to 0 otherwise, and changes
nothing else but the pc; otherwise it raises MemOutOfRange (D10, D18) and changes nothing else. Clipping at
the bottom edge, and toggling each of a Low pixel's four cells by itself, are the spec's own choices (D35, D34). -/
def Obligations.DrawFlipsCoveredCells : Prop :=
  ∀ (x y : RegIx) (n : Nibble) (s : State), n ≠ 0x0#4 →
    (s.ea (n.toNat - 1) ≤ 0xFFF →
      ∃ t, exec (.draw x y n) s = .next t ∧ t = { s with disp := t.disp, V := t.V, pc := s.pc + 2#16 } ∧
        (∀ gx gy, gx < 128 → gy < 64 →
          (t.disp.cell gx gy = true ↔ (s.disp.cell gx gy = true ∧ ¬ s.drawCovers x y n gx gy) ∨
            (s.disp.cell gx gy = false ∧ s.drawCovers x y n gx gy))) ∧
        ((∃ gx gy, gx < 128 ∧ gy < 64 ∧ s.drawCovers x y n gx gy ∧ s.disp.cell gx gy = true) → t.reg 0xF#4 = 0x01#8) ∧
        ((¬ ∃ gx gy, gx < 128 ∧ gy < 64 ∧ s.drawCovers x y n gx gy ∧ s.disp.cell gx gy = true) → t.reg 0xF#4 = 0x00#8) ∧
        ∀ r, r ≠ 0xF#4 → t.reg r = s.reg r) ∧
    (0xFFF < s.ea (n.toNat - 1) → exec (.draw x y n) s = .next { s with run := .halted .memOutOfRange })

/-- R240, R237, R238: in High mode, when its 32 bytes lie in RAM, DrawLarge flips exactly the cells its lit,
unclipped pixels cover, with the flag and frame of Draw; that the lower byte of a row is its left half is the
spec's own reading (D17). In Low mode it raises ModeViolation whatever `I` holds (D13), and in High mode with
`I + 31` above 0xFFF MemOutOfRange (D10), changing nothing else. -/
def Obligations.DrawLargeFlipsCoveredCells : Prop :=
  ∀ (x y : RegIx) (s : State),
    (s.hires = true → s.ea 31 ≤ 0xFFF →
      ∃ t, exec (.drawLarge x y) s = .next t ∧ t = { s with disp := t.disp, V := t.V, pc := s.pc + 2#16 } ∧
        (∀ gx gy, gx < 128 → gy < 64 →
          (t.disp.cell gx gy = true ↔ (s.disp.cell gx gy = true ∧ ¬ s.drawLargeCovers x y gx gy) ∨
            (s.disp.cell gx gy = false ∧ s.drawLargeCovers x y gx gy))) ∧
        ((∃ gx gy, gx < 128 ∧ gy < 64 ∧ s.drawLargeCovers x y gx gy ∧ s.disp.cell gx gy = true) → t.reg 0xF#4 = 0x01#8) ∧
        ((¬ ∃ gx gy, gx < 128 ∧ gy < 64 ∧ s.drawLargeCovers x y gx gy ∧ s.disp.cell gx gy = true) → t.reg 0xF#4 = 0x00#8) ∧
        ∀ r, r ≠ 0xF#4 → t.reg r = s.reg r) ∧
    (s.hires = false → exec (.drawLarge x y) s = .next { s with run := .halted .modeViolation }) ∧
    (s.hires = true → 0xFFF < s.ea 31 → exec (.drawLarge x y) s = .next { s with run := .halted .memOutOfRange })

/-- R235, R236, R240, the source's own law (§8): drawing the same sprite a second time at the same coordinates gives the
grid back, whatever was on it, for Draw in either mode and for DrawLarge in High mode; on a blank grid the second draw
collides exactly when the first lit some cell. The second draw runs after the first from the same registers, and,
where neither coordinate is the flag register, which the first draw overwrites, also directly after the first. -/
def Obligations.DrawTwiceRestoresGrid : Prop :=
  ∀ (x y : RegIx) (s : State) (i : Instr),
    (∃ n, i = .draw x y n ∧ n ≠ 0x0#4 ∧ s.ea (n.toNat - 1) ≤ 0xFFF) ∨
      (i = .drawLarge x y ∧ s.hires = true ∧ s.ea 31 ≤ 0xFFF) →
    ∃ t, exec i s = .next t ∧
      (∃ u, exec i { t with V := s.V } = .next u ∧ u.disp = s.disp ∧
        (s.disp = Grid.blank → (u.reg 0xF#4 = 0x01#8 ↔ t.disp ≠ Grid.blank))) ∧
      (x ≠ 0xF#4 → y ≠ 0xF#4 → ∃ u, exec i t = .next u ∧ u.disp = s.disp)

/-- R243, R244, R245, R241: in High mode the scrolls move every cell by 4 columns right, 4 columns left, or `n` rows
down, clear the vacated cells, and change nothing else but the pc. In Low mode they raise ModeViolation (R238, D13)
and change nothing else, ScrollDown 0 included. -/
def Obligations.ScrollsMoveEveryCell : Prop :=
  ∀ (n : Nibble) (s : State), (s.hires = true →
    (∃ t, exec .scrollRight s = .next t ∧ t = { s with disp := t.disp, pc := s.pc + 2#16 } ∧
      ∀ gx gy, gx < 128 → gy < 64 →
        t.disp.cell gx gy = if gx ≥ 4 then s.disp.cell (gx - 4) gy else false) ∧
    (∃ t, exec .scrollLeft s = .next t ∧ t = { s with disp := t.disp, pc := s.pc + 2#16 } ∧
      ∀ gx gy, gx < 128 → gy < 64 →
        t.disp.cell gx gy = if gx ≤ 123 then s.disp.cell (gx + 4) gy else false) ∧
    (∃ t, exec (.scrollDown n) s = .next t ∧ t = { s with disp := t.disp, pc := s.pc + 2#16 } ∧
      ∀ gx gy, gx < 128 → gy < 64 →
        t.disp.cell gx gy = if gy ≥ n.toNat then s.disp.cell gx (gy - n.toNat) else false)) ∧
  (s.hires = false →
    exec .scrollRight s = .next { s with run := .halted .modeViolation } ∧
    exec .scrollLeft s = .next { s with run := .halted .modeViolation } ∧
    exec (.scrollDown n) s = .next { s with run := .halted .modeViolation })

/-- R241, R243, R244: ScrollRight then ScrollLeft gives back every cell but those of columns 124 to 127, which are
lost: the pair is not the identity. -/
def Obligations.ScrollRightThenLeftLosesFourColumns : Prop :=
  ∀ s : State, s.hires = true → ∃ t u, exec .scrollRight s = .next t ∧ exec .scrollLeft t = .next u ∧
    ∀ gx gy, gx < 128 → gy < 64 → u.disp.cell gx gy = if gx < 124 then s.disp.cell gx gy else false

/-- R246, R247, R248: ClearScreen unlights every cell in either mode; the mode instructions set the mode and leave
every cell (D27); none of the three changes anything else but the pc. -/
def Obligations.ClearScreenAndModeInstructions : Prop :=
  ∀ s : State,
    (∃ t, exec .clearScreen s = .next t ∧ t = { s with disp := t.disp, pc := s.pc + 2#16 } ∧
      ∀ gx gy, gx < 128 → gy < 64 → t.disp.cell gx gy = false) ∧
    exec .highResolutionOff s = .next { s with hires := false, pc := s.pc + 2#16 } ∧
    exec .highResolutionOn s = .next { s with hires := true, pc := s.pc + 2#16 }

/-! ## Host commands (46_host_commands.md) -/

/-- R271, R278, the spec's own choice (D1, D2): the command encoding, codes 9 to 15 being IDLE. In every state a step is
the command at the head of the host's list, which then leaves it, and with an empty list a STEP with a free random
byte: both the model's own choice (logs 4 and 5). The field of the output `disp_changed` is set last (log 7). -/
def Obligations.CommandsDecodeAndRunInOrder : Prop :=
  (∀ p : Ports,
    (p.cmd = 0x1#4 → p.command = .step p.rand) ∧ (p.cmd = 0x2#4 → p.command = .tick) ∧
    (p.cmd = 0x3#4 → p.command = .keyResolve p.key) ∧ (p.cmd = 0x4#4 → p.command = .setKeys p.keysIn) ∧
    (p.cmd = 0x5#4 → p.command = .load p.ldAddr p.ldData) ∧ (p.cmd = 0x6#4 → p.command = .setDT p.tmrData) ∧
    (p.cmd = 0x7#4 → p.command = .setST p.tmrData) ∧ (p.cmd = 0x8#4 → p.command = .reset) ∧
    ((p.cmd = 0x0#4 ∨ 9 ≤ p.cmd.toNat) → p.command = .idle)) ∧
  ∀ s : State,
    (∀ c rest, s.host = c :: rest → ∃ t, transact c { s with host := rest } = .next t ∧
      step s = .next { t with dispChanged := c.dispChanged s t }) ∧
    (s.host = [] → ∃ t,
      transact (.step (Config.freeRand s.draws)) { s with draws := s.draws + 1 } = .next t ∧
      step s = .next { t with dispChanged := decide (s.disp ≠ t.disp) })

/-- R274: TICK takes 1 from each timer that is not 0, in every run state (D21), and changes nothing else. -/
def Obligations.TickDecrementsTimers : Prop :=
  ∀ s : State, ∃ t, transact .tick s = .next t ∧ t = { s with DT := t.DT, ST := t.ST } ∧
    t.DT.toNat = s.DT.toNat - 1 ∧ t.ST.toNat = s.ST.toNat - 1

/-- R275: KEY_RESOLVE in AwaitingKey(r) writes the key index into V[r] and resumes, changing nothing else; in Running
and in Halted it changes nothing (D20). -/
def Obligations.KeyResolveWritesAwaitedRegister : Prop :=
  ∀ (s : State) (k : Nibble),
    (∀ r, s.run = .awaitingKey r → ∃ t, transact (.keyResolve k) s = .next t ∧
      t = { s with V := t.V, run := .running } ∧ (t.reg r).toNat = k.toNat ∧ ∀ q, q ≠ r → t.reg q = s.reg q) ∧
    ((∀ r, s.run ≠ .awaitingKey r) → transact (.keyResolve k) s = .next s)

/-- R276, R277, R278, R279: SET_KEYS replaces the key vector, SET_DT and SET_ST a timer, LOAD one byte of RAM; IDLE
changes nothing; each in every run state, and nothing else changes (the spec's own choices D2, D24, D25, D28). -/
def Obligations.HostWritesTouchOneThing : Prop :=
  ∀ (s : State) (v : BitVec 16) (b : Byte) (a : Addr12), s.mem.wf →
    transact (.setKeys v) s = .next { s with keys := v } ∧
    transact (.setDT b) s = .next { s with DT := b } ∧
    transact (.setST b) s = .next { s with ST := b } ∧
    transact .idle s = .next s ∧
    ∃ t, transact (.load a b) s = .next t ∧ t = { s with mem := t.mem } ∧
      ∀ q, t.byteAt q = if q = a.toNat then b else s.byteAt q

/-- R272, R42: RESET sets every piece of state to its reset value but RAM and the RPL store, which it does not write.
Every value but the pc's is the spec's own choice (D3 to D5); STACK_DEPTH and the model's input fields are no state
and stay (log 5). -/
def Obligations.ResetCommandSetsResetValues : Prop :=
  ∀ s : State, ∃ t, transact .reset s = .next t ∧
    t.pc = 0x0200#16 ∧ (∀ r, t.reg r = 0x00#8) ∧ t.I = 0x0000#16 ∧ t.sp = 0 ∧ t.DT = 0x00#8 ∧ t.ST = 0x00#8 ∧
    (∀ gx gy, gx < 128 → gy < 64 → t.disp.cell gx gy = false) ∧ t.hires = false ∧
    (∀ k < 16, t.keys.getLsbD k = false) ∧ t.run = .running ∧
    t.mem = s.mem ∧ t.RPL = s.RPL ∧ t.stackDepth = s.stackDepth ∧ t.host = s.host ∧ t.rand = s.rand ∧
    t.draws = s.draws ∧ t.dispChanged = false

/-- R129, R281, R272, R278: after a STEP, `disp_changed` is 1 exactly when some cell of the grid differs, the spec's
literal reading (D19), and 0 when the STEP faulted or was ignored; after TICK, KEY_RESOLVE, SET_KEYS, LOAD, SET_DT,
SET_ST and RESET it is 0; after IDLE it is as before (R278) or 0 (R281), two rules that differ, by the free value of log 7,
so the clause holds under either ruling. -/
def Obligations.DispChangedMeansACellDiffers : Prop :=
  ∀ s t : State, step s = .next t →
    (∀ r, s.nextCommand = .step r →
      (t.dispChanged = true ↔ ∃ gx gy, gx < 128 ∧ gy < 64 ∧ s.disp.cell gx gy ≠ t.disp.cell gx gy) ∧
      ((∃ c, t.run = .halted c) ∨ s.run ≠ .running → t.dispChanged = false)) ∧
    (s.nextCommand = .idle → t.dispChanged = if Config.idleKeepsDispChanged then s.dispChanged else false) ∧
    ((∀ r, s.nextCommand ≠ .step r) → s.nextCommand ≠ .idle → t.dispChanged = false)

/-- R280, R281, R270, R291: the outputs as functions of the state, with the fault numbers, which are the spec's own
choice (D1, D7, D25); `disp_changed`, the result of the most recent command, is the model's field (log 7). -/
def Obligations.OutputsShowTheState : Prop :=
  ∀ (s : State) (dx : BitVec 7) (dy : BitVec 6),
    (s.outputs dx dy).dtOut = s.DT ∧ (s.outputs dx dy).stOut = s.ST ∧
    (s.outputs dx dy).dispQ = s.disp.cell dx.toNat dy.toNat ∧ (s.outputs dx dy).dispChanged = s.dispChanged ∧
    ((s.outputs dx dy).awaitingKey = true ↔ ∃ r, s.run = .awaitingKey r) ∧
    (∀ r, s.run = .awaitingKey r → (s.outputs dx dy).awaitReg = r) ∧
    ((∀ r, s.run ≠ .awaitingKey r) → (s.outputs dx dy).awaitReg = 0#4) ∧
    ((s.outputs dx dy).halted = true ↔ ∃ c, s.run = .halted c) ∧
    ((∀ c, s.run ≠ .halted c) → (s.outputs dx dy).faultCode = 0#3) ∧
    (s.run = .halted .stackUnderflow → (s.outputs dx dy).faultCode = 1#3) ∧
    (s.run = .halted .stackOverflow → (s.outputs dx dy).faultCode = 2#3) ∧
    (s.run = .halted .fetchOutOfRange → (s.outputs dx dy).faultCode = 3#3) ∧
    (s.run = .halted .memOutOfRange → (s.outputs dx dy).faultCode = 4#3) ∧
    (s.run = .halted .rplIndexOutOfRange → (s.outputs dx dy).faultCode = 5#3) ∧
    (s.run = .halted .keyIndexOutOfRange → (s.outputs dx dy).faultCode = 6#3) ∧
    (s.run = .halted .modeViolation → (s.outputs dx dy).faultCode = 7#3)

/-! ## RAM (20_memory.md) -/

/-- R63, R64, R72: a write to a RAM address is read back there, leaves every other byte, and keeps the canonical
form; a read or a write above 0xFFF is MemOutOfRange (D10). -/
def Obligations.ReadAfterWrite : Prop :=
  ∀ (s : State) (a : Nat) (v : Byte), s.mem.wf →
    (a ≤ 0xFFF → s.memRead a = .ok (s.byteAt a) ∧
      ∃ t, s.memWrite a v = .ok t ∧ t = { s with mem := t.mem } ∧ t.mem.wf ∧
        ∀ b, t.byteAt b = if b = a then v else s.byteAt b) ∧
    (0xFFF < a → s.memRead a = .error .memOutOfRange ∧ s.memWrite a v = .error .memOutOfRange)

/-- R38: a RAM in canonical form, the model's way of holding R38's array, is determined by what its 4096 addresses read
as, so equal memories are equal data. -/
def Obligations.CanonicalRamIsItsBytes : Prop :=
  ∀ m m' : Memory, m.wf → m'.wf → (∀ a ≤ 0xFFF, Memory.read m a = Memory.read m' a) → m = m'
end

