-- ==== Sys2Proof/Laws/Decode.lean ====
section
/-! SUPPORT. The fields of an opcode as numbers, and the fields of a packed opcode: what a proof about decode or
encode cites instead of unfolding a bit slice. -/

namespace Sys2Proof

theorem toNat_append_add {m n : Nat} (a : BitVec m) (b : BitVec n) :
    (a ++ b).toNat = a.toNat * 2 ^ n + b.toNat := by
  rw [BitVec.toNat_append, ← Nat.shiftLeft_add_eq_or_of_lt b.isLt, Nat.shiftLeft_eq]

/-! ## Fields as numbers (30_encoding.md R91) -/

theorem Opcode.group_toNat (w : Opcode) : w.group.toNat = w.toNat / 4096 := by
  have := w.isLt
  simp [Opcode.group, BitVec.extractLsb'_toNat, Nat.shiftRight_eq_div_pow]; omega

theorem Opcode.x_toNat (w : Opcode) : w.x.toNat = w.toNat / 256 % 16 := by
  simp [Opcode.x, BitVec.extractLsb'_toNat, Nat.shiftRight_eq_div_pow]

theorem Opcode.y_toNat (w : Opcode) : w.y.toNat = w.toNat / 16 % 16 := by
  simp [Opcode.y, BitVec.extractLsb'_toNat, Nat.shiftRight_eq_div_pow]

theorem Opcode.nibble_toNat (w : Opcode) : w.nibble.toNat = w.toNat % 16 := by
  simp [Opcode.nibble, BitVec.extractLsb'_toNat]

theorem Opcode.byte_toNat (w : Opcode) : w.byte.toNat = w.toNat % 256 := by
  simp [Opcode.byte, BitVec.extractLsb'_toNat]

theorem Opcode.addr_toNat (w : Opcode) : w.addr.toNat = w.toNat % 4096 := by
  simp [Opcode.addr, BitVec.extractLsb'_toNat]

theorem Opcode.msb_toNat (w : Opcode) : w.msb.toNat = w.toNat / 256 := by
  have := w.isLt
  simp [Opcode.msb, BitVec.extractLsb'_toNat, Nat.shiftRight_eq_div_pow]; omega

theorem Opcode.lsb_toNat (w : Opcode) : w.lsb.toNat = w.toNat % 256 := by
  simp [Opcode.lsb, BitVec.extractLsb'_toNat]

/-! ## Packed opcodes as numbers -/

theorem packNibbles_toNat (a b c d : Nibble) :
    (packNibbles a b c d).toNat = a.toNat * 4096 + b.toNat * 256 + c.toNat * 16 + d.toNat := by
  simp only [packNibbles, toNat_append_add]; omega

theorem packByte_toNat (g : Nibble) (x : RegIx) (k : Byte) :
    (packByte g x k).toNat = g.toNat * 4096 + x.toNat * 256 + k.toNat := by
  simp only [packByte, toNat_append_add]; omega

theorem packAddr_toNat (g : Nibble) (a : Addr12) :
    (packAddr g a).toNat = g.toNat * 4096 + a.toNat := by
  simp only [packAddr, toNat_append_add]; omega

theorem ofBytes_toNat (m l : Byte) : (Opcode.ofBytes m l).toNat = m.toNat * 256 + l.toNat := by
  simp only [Opcode.ofBytes, toNat_append_add]; omega

/-- An opcode is its two bytes (20_memory.md R61). -/
@[simp] theorem ofBytes_msb_lsb (w : Opcode) : Opcode.ofBytes w.msb w.lsb = w := by
  apply BitVec.eq_of_toNat_eq
  rw [ofBytes_toNat, Opcode.msb_toNat, Opcode.lsb_toNat]; omega

@[simp] theorem msb_ofBytes (m l : Byte) : (Opcode.ofBytes m l).msb = m := by
  apply BitVec.eq_of_toNat_eq
  rw [Opcode.msb_toNat, ofBytes_toNat]; have := l.isLt; omega

@[simp] theorem lsb_ofBytes (m l : Byte) : (Opcode.ofBytes m l).lsb = l := by
  apply BitVec.eq_of_toNat_eq
  rw [Opcode.lsb_toNat, ofBytes_toNat]; have := l.isLt; omega

/-! ## Fields of packed opcodes -/

section
variable (a b c d : Nibble) (k : Byte) (t : Addr12)

@[simp] theorem group_packNibbles : (packNibbles a b c d).group = a := by
  apply BitVec.eq_of_toNat_eq
  rw [Opcode.group_toNat, packNibbles_toNat]; have := b.isLt; have := c.isLt; have := d.isLt; omega

@[simp] theorem x_packNibbles : (packNibbles a b c d).x = b := by
  apply BitVec.eq_of_toNat_eq
  rw [Opcode.x_toNat, packNibbles_toNat]; have := b.isLt; have := c.isLt; have := d.isLt; omega

@[simp] theorem y_packNibbles : (packNibbles a b c d).y = c := by
  apply BitVec.eq_of_toNat_eq
  rw [Opcode.y_toNat, packNibbles_toNat]; have := c.isLt; have := d.isLt; omega

@[simp] theorem nibble_packNibbles : (packNibbles a b c d).nibble = d := by
  apply BitVec.eq_of_toNat_eq
  rw [Opcode.nibble_toNat, packNibbles_toNat]; have := d.isLt; omega

@[simp] theorem byte_packNibbles : (packNibbles a b c d).byte = c ++ d := by
  apply BitVec.eq_of_toNat_eq
  rw [Opcode.byte_toNat, packNibbles_toNat, toNat_append_add]
  have := c.isLt; have := d.isLt; omega

@[simp] theorem group_packByte : (packByte a b k).group = a := by
  apply BitVec.eq_of_toNat_eq
  rw [Opcode.group_toNat, packByte_toNat]; have := b.isLt; have := k.isLt; omega

@[simp] theorem x_packByte : (packByte a b k).x = b := by
  apply BitVec.eq_of_toNat_eq
  rw [Opcode.x_toNat, packByte_toNat]; have := b.isLt; have := k.isLt; omega

@[simp] theorem byte_packByte : (packByte a b k).byte = k := by
  apply BitVec.eq_of_toNat_eq
  rw [Opcode.byte_toNat, packByte_toNat]; have := k.isLt; omega

@[simp] theorem group_packAddr : (packAddr a t).group = a := by
  apply BitVec.eq_of_toNat_eq
  rw [Opcode.group_toNat, packAddr_toNat]; have := t.isLt; omega

@[simp] theorem addr_packAddr : (packAddr a t).addr = t := by
  apply BitVec.eq_of_toNat_eq
  rw [Opcode.addr_toNat, packAddr_toNat]; have := t.isLt; omega

end

/-! ## Masks act on the parts of a packed opcode -/

theorem packNibbles_and (a b c d a' b' c' d' : Nibble) :
    packNibbles a b c d &&& packNibbles a' b' c' d' =
      packNibbles (a &&& a') (b &&& b') (c &&& c') (d &&& d') := by
  exact BitVec.and_append.trans (congrArg (· ++ (d &&& d')) (BitVec.and_append.trans
    (congrArg (· ++ (c &&& c')) BitVec.and_append)))

theorem packByte_and (a x a' x' : Nibble) (k k' : Byte) :
    packByte a x k &&& packByte a' x' k' = packByte (a &&& a') (x &&& x') (k &&& k') := by
  exact BitVec.and_append.trans (congrArg (· ++ (k &&& k')) BitVec.and_append)

theorem packAddr_and (a a' : Nibble) (t t' : Addr12) :
    packAddr a t &&& packAddr a' t' = packAddr (a &&& a') (t &&& t') :=
  BitVec.and_append

/-! ## An opcode from its fields -/

theorem packNibbles_fields (w : Opcode) : packNibbles w.group w.x w.y w.nibble = w := by
  apply BitVec.eq_of_toNat_eq
  rw [packNibbles_toNat, Opcode.group_toNat, Opcode.x_toNat, Opcode.y_toNat, Opcode.nibble_toNat]
  omega

theorem packByte_fields (w : Opcode) : packByte w.group w.x w.byte = w := by
  apply BitVec.eq_of_toNat_eq
  rw [packByte_toNat, Opcode.group_toNat, Opcode.x_toNat, Opcode.byte_toNat]
  omega

theorem packAddr_fields (w : Opcode) : packAddr w.group w.addr = w := by
  apply BitVec.eq_of_toNat_eq
  rw [packAddr_toNat, Opcode.group_toNat, Opcode.addr_toNat]
  omega

theorem byte_eq_append (w : Opcode) : w.byte = w.y ++ w.nibble := by
  apply BitVec.eq_of_toNat_eq
  rw [toNat_append_add, Opcode.byte_toNat, Opcode.y_toNat, Opcode.nibble_toNat]
  omega

end Sys2Proof
end

