-- ==== Sys2Proof/Laws/State.lean ====
section
/-! SUPPORT. One lemma for each field of State and each named update of it, true by rfl, so that no later proof
unfolds a record update. What an update writes into `V` and `disp` stands in Laws/Registers.lean and
Laws/Display.lean. -/

namespace Sys2Proof.Machine

variable (s : State)

/-! ## goto -/

@[simp] theorem State.goto_mem (t : Word) : (s.goto t).mem = s.mem := rfl
@[simp] theorem State.goto_V (t : Word) : (s.goto t).V = s.V := rfl
@[simp] theorem State.goto_RPL (t : Word) : (s.goto t).RPL = s.RPL := rfl
@[simp] theorem State.goto_stack (t : Word) : (s.goto t).stack = s.stack := rfl
@[simp] theorem State.goto_disp (t : Word) : (s.goto t).disp = s.disp := rfl
@[simp] theorem State.goto_hires (t : Word) : (s.goto t).hires = s.hires := rfl
@[simp] theorem State.goto_DT (t : Word) : (s.goto t).DT = s.DT := rfl
@[simp] theorem State.goto_ST (t : Word) : (s.goto t).ST = s.ST := rfl
@[simp] theorem State.goto_I (t : Word) : (s.goto t).I = s.I := rfl
@[simp] theorem State.goto_pc (t : Word) : (s.goto t).pc = t := rfl
@[simp] theorem State.goto_keys (t : Word) : (s.goto t).keys = s.keys := rfl
@[simp] theorem State.goto_run (t : Word) : (s.goto t).run = s.run := rfl
@[simp] theorem State.goto_stackDepth (t : Word) : (s.goto t).stackDepth = s.stackDepth := rfl
@[simp] theorem State.goto_host (t : Word) : (s.goto t).host = s.host := rfl
@[simp] theorem State.goto_rand (t : Word) : (s.goto t).rand = s.rand := rfl
@[simp] theorem State.goto_draws (t : Word) : (s.goto t).draws = s.draws := rfl
@[simp] theorem State.goto_dispChanged (t : Word) : (s.goto t).dispChanged = s.dispChanged := rfl

/-! ## advance -/

@[simp] theorem State.advance_mem : s.advance.mem = s.mem := rfl
@[simp] theorem State.advance_V : s.advance.V = s.V := rfl
@[simp] theorem State.advance_RPL : s.advance.RPL = s.RPL := rfl
@[simp] theorem State.advance_stack : s.advance.stack = s.stack := rfl
@[simp] theorem State.advance_disp : s.advance.disp = s.disp := rfl
@[simp] theorem State.advance_hires : s.advance.hires = s.hires := rfl
@[simp] theorem State.advance_DT : s.advance.DT = s.DT := rfl
@[simp] theorem State.advance_ST : s.advance.ST = s.ST := rfl
@[simp] theorem State.advance_I : s.advance.I = s.I := rfl
@[simp] theorem State.advance_pc : s.advance.pc = s.npc := rfl
@[simp] theorem State.advance_keys : s.advance.keys = s.keys := rfl
@[simp] theorem State.advance_run : s.advance.run = s.run := rfl
@[simp] theorem State.advance_stackDepth : s.advance.stackDepth = s.stackDepth := rfl
@[simp] theorem State.advance_host : s.advance.host = s.host := rfl
@[simp] theorem State.advance_rand : s.advance.rand = s.rand := rfl
@[simp] theorem State.advance_draws : s.advance.draws = s.draws := rfl
@[simp] theorem State.advance_dispChanged : s.advance.dispChanged = s.dispChanged := rfl

/-! ## skipIf -/

@[simp] theorem State.skipIf_mem (b : Bool) : (s.skipIf b).mem = s.mem := rfl
@[simp] theorem State.skipIf_V (b : Bool) : (s.skipIf b).V = s.V := rfl
@[simp] theorem State.skipIf_RPL (b : Bool) : (s.skipIf b).RPL = s.RPL := rfl
@[simp] theorem State.skipIf_stack (b : Bool) : (s.skipIf b).stack = s.stack := rfl
@[simp] theorem State.skipIf_disp (b : Bool) : (s.skipIf b).disp = s.disp := rfl
@[simp] theorem State.skipIf_hires (b : Bool) : (s.skipIf b).hires = s.hires := rfl
@[simp] theorem State.skipIf_DT (b : Bool) : (s.skipIf b).DT = s.DT := rfl
@[simp] theorem State.skipIf_ST (b : Bool) : (s.skipIf b).ST = s.ST := rfl
@[simp] theorem State.skipIf_I (b : Bool) : (s.skipIf b).I = s.I := rfl
@[simp] theorem State.skipIf_pc (b : Bool) : (s.skipIf b).pc = if b then s.npc + 2#16 else s.npc := rfl
@[simp] theorem State.skipIf_keys (b : Bool) : (s.skipIf b).keys = s.keys := rfl
@[simp] theorem State.skipIf_run (b : Bool) : (s.skipIf b).run = s.run := rfl
@[simp] theorem State.skipIf_stackDepth (b : Bool) : (s.skipIf b).stackDepth = s.stackDepth := rfl
@[simp] theorem State.skipIf_host (b : Bool) : (s.skipIf b).host = s.host := rfl
@[simp] theorem State.skipIf_rand (b : Bool) : (s.skipIf b).rand = s.rand := rfl
@[simp] theorem State.skipIf_draws (b : Bool) : (s.skipIf b).draws = s.draws := rfl
@[simp] theorem State.skipIf_dispChanged (b : Bool) : (s.skipIf b).dispChanged = s.dispChanged := rfl

/-! ## setReg -/

@[simp] theorem State.setReg_mem (r : RegIx) (v : Byte) : (s.setReg r v).mem = s.mem := rfl
@[simp] theorem State.setReg_RPL (r : RegIx) (v : Byte) : (s.setReg r v).RPL = s.RPL := rfl
@[simp] theorem State.setReg_stack (r : RegIx) (v : Byte) : (s.setReg r v).stack = s.stack := rfl
@[simp] theorem State.setReg_disp (r : RegIx) (v : Byte) : (s.setReg r v).disp = s.disp := rfl
@[simp] theorem State.setReg_hires (r : RegIx) (v : Byte) : (s.setReg r v).hires = s.hires := rfl
@[simp] theorem State.setReg_DT (r : RegIx) (v : Byte) : (s.setReg r v).DT = s.DT := rfl
@[simp] theorem State.setReg_ST (r : RegIx) (v : Byte) : (s.setReg r v).ST = s.ST := rfl
@[simp] theorem State.setReg_I (r : RegIx) (v : Byte) : (s.setReg r v).I = s.I := rfl
@[simp] theorem State.setReg_pc (r : RegIx) (v : Byte) : (s.setReg r v).pc = s.pc := rfl
@[simp] theorem State.setReg_keys (r : RegIx) (v : Byte) : (s.setReg r v).keys = s.keys := rfl
@[simp] theorem State.setReg_run (r : RegIx) (v : Byte) : (s.setReg r v).run = s.run := rfl
@[simp] theorem State.setReg_stackDepth (r : RegIx) (v : Byte) : (s.setReg r v).stackDepth = s.stackDepth := rfl
@[simp] theorem State.setReg_host (r : RegIx) (v : Byte) : (s.setReg r v).host = s.host := rfl
@[simp] theorem State.setReg_rand (r : RegIx) (v : Byte) : (s.setReg r v).rand = s.rand := rfl
@[simp] theorem State.setReg_draws (r : RegIx) (v : Byte) : (s.setReg r v).draws = s.draws := rfl
@[simp] theorem State.setReg_dispChanged (r : RegIx) (v : Byte) : (s.setReg r v).dispChanged = s.dispChanged := rfl

/-! ## setFlagThenReg -/

@[simp] theorem State.setFlagThenReg_mem (f : Bool) (r : RegIx) (v : Byte) : (s.setFlagThenReg f r v).mem = s.mem := rfl
@[simp] theorem State.setFlagThenReg_RPL (f : Bool) (r : RegIx) (v : Byte) : (s.setFlagThenReg f r v).RPL = s.RPL := rfl
@[simp] theorem State.setFlagThenReg_stack (f : Bool) (r : RegIx) (v : Byte) : (s.setFlagThenReg f r v).stack = s.stack := rfl
@[simp] theorem State.setFlagThenReg_disp (f : Bool) (r : RegIx) (v : Byte) : (s.setFlagThenReg f r v).disp = s.disp := rfl
@[simp] theorem State.setFlagThenReg_hires (f : Bool) (r : RegIx) (v : Byte) : (s.setFlagThenReg f r v).hires = s.hires := rfl
@[simp] theorem State.setFlagThenReg_DT (f : Bool) (r : RegIx) (v : Byte) : (s.setFlagThenReg f r v).DT = s.DT := rfl
@[simp] theorem State.setFlagThenReg_ST (f : Bool) (r : RegIx) (v : Byte) : (s.setFlagThenReg f r v).ST = s.ST := rfl
@[simp] theorem State.setFlagThenReg_I (f : Bool) (r : RegIx) (v : Byte) : (s.setFlagThenReg f r v).I = s.I := rfl
@[simp] theorem State.setFlagThenReg_pc (f : Bool) (r : RegIx) (v : Byte) : (s.setFlagThenReg f r v).pc = s.pc := rfl
@[simp] theorem State.setFlagThenReg_keys (f : Bool) (r : RegIx) (v : Byte) : (s.setFlagThenReg f r v).keys = s.keys := rfl
@[simp] theorem State.setFlagThenReg_run (f : Bool) (r : RegIx) (v : Byte) : (s.setFlagThenReg f r v).run = s.run := rfl
@[simp] theorem State.setFlagThenReg_stackDepth (f : Bool) (r : RegIx) (v : Byte) : (s.setFlagThenReg f r v).stackDepth = s.stackDepth := rfl
@[simp] theorem State.setFlagThenReg_host (f : Bool) (r : RegIx) (v : Byte) : (s.setFlagThenReg f r v).host = s.host := rfl
@[simp] theorem State.setFlagThenReg_rand (f : Bool) (r : RegIx) (v : Byte) : (s.setFlagThenReg f r v).rand = s.rand := rfl
@[simp] theorem State.setFlagThenReg_draws (f : Bool) (r : RegIx) (v : Byte) : (s.setFlagThenReg f r v).draws = s.draws := rfl
@[simp] theorem State.setFlagThenReg_dispChanged (f : Bool) (r : RegIx) (v : Byte) : (s.setFlagThenReg f r v).dispChanged = s.dispChanged := rfl

/-! ## drawSprite -/

@[simp] theorem State.drawSprite_mem (m : Screen) (rows : List (List Bool)) (vx vy : Byte) : (s.drawSprite m rows vx vy).mem = s.mem := rfl
@[simp] theorem State.drawSprite_RPL (m : Screen) (rows : List (List Bool)) (vx vy : Byte) : (s.drawSprite m rows vx vy).RPL = s.RPL := rfl
@[simp] theorem State.drawSprite_stack (m : Screen) (rows : List (List Bool)) (vx vy : Byte) : (s.drawSprite m rows vx vy).stack = s.stack := rfl
@[simp] theorem State.drawSprite_hires (m : Screen) (rows : List (List Bool)) (vx vy : Byte) : (s.drawSprite m rows vx vy).hires = s.hires := rfl
@[simp] theorem State.drawSprite_DT (m : Screen) (rows : List (List Bool)) (vx vy : Byte) : (s.drawSprite m rows vx vy).DT = s.DT := rfl
@[simp] theorem State.drawSprite_ST (m : Screen) (rows : List (List Bool)) (vx vy : Byte) : (s.drawSprite m rows vx vy).ST = s.ST := rfl
@[simp] theorem State.drawSprite_I (m : Screen) (rows : List (List Bool)) (vx vy : Byte) : (s.drawSprite m rows vx vy).I = s.I := rfl
@[simp] theorem State.drawSprite_pc (m : Screen) (rows : List (List Bool)) (vx vy : Byte) : (s.drawSprite m rows vx vy).pc = s.pc := rfl
@[simp] theorem State.drawSprite_keys (m : Screen) (rows : List (List Bool)) (vx vy : Byte) : (s.drawSprite m rows vx vy).keys = s.keys := rfl
@[simp] theorem State.drawSprite_run (m : Screen) (rows : List (List Bool)) (vx vy : Byte) : (s.drawSprite m rows vx vy).run = s.run := rfl
@[simp] theorem State.drawSprite_stackDepth (m : Screen) (rows : List (List Bool)) (vx vy : Byte) : (s.drawSprite m rows vx vy).stackDepth = s.stackDepth := rfl
@[simp] theorem State.drawSprite_host (m : Screen) (rows : List (List Bool)) (vx vy : Byte) : (s.drawSprite m rows vx vy).host = s.host := rfl
@[simp] theorem State.drawSprite_rand (m : Screen) (rows : List (List Bool)) (vx vy : Byte) : (s.drawSprite m rows vx vy).rand = s.rand := rfl
@[simp] theorem State.drawSprite_draws (m : Screen) (rows : List (List Bool)) (vx vy : Byte) : (s.drawSprite m rows vx vy).draws = s.draws := rfl
@[simp] theorem State.drawSprite_dispChanged (m : Screen) (rows : List (List Bool)) (vx vy : Byte) : (s.drawSprite m rows vx vy).dispChanged = s.dispChanged := rfl

end Sys2Proof.Machine
end

