-- ==== Sys2Proof/Laws/Registers.lean ====
section
/-! SUPPORT. What the register operations do: one register is written, every other one keeps its value; a range is
overlaid on a file of registers. -/

namespace Sys2Proof.Machine

variable (s : State)

theorem State.reg_eq (r : RegIx) : s.reg r = s.V[r.toNat]'r.isLt := rfl

theorem State.reg_congr {s t : State} (h : t.V = s.V) (r : RegIx) : t.reg r = s.reg r := by
  simp only [State.reg, h]

@[simp] theorem State.reg_goto (t : Word) (r : RegIx) : (s.goto t).reg r = s.reg r := rfl

@[simp] theorem State.reg_advance (r : RegIx) : s.advance.reg r = s.reg r := rfl

@[simp] theorem State.reg_skipIf (b : Bool) (r : RegIx) : (s.skipIf b).reg r = s.reg r := rfl

/-- One register is written; every other one keeps its value. -/
@[simp] theorem State.reg_setReg (r q : RegIx) (v : Byte) :
    (s.setReg r v).reg q = if q = r then v else s.reg q := by
  by_cases h : q = r
  · subst h; simp [State.reg, State.setReg]
  · have : r.toNat ≠ q.toNat := fun e => h (BitVec.eq_of_toNat_eq e.symm)
    simp [State.reg, State.setReg, h, this]

/-- The result survives, then the flag, then the old value (42_arithmetic.md R161). -/
@[simp] theorem State.reg_setFlagThenReg (f : Bool) (r q : RegIx) (v : Byte) :
    (s.setFlagThenReg f r v).reg q =
      if q = r then v else if q = flagReg then flagByte f else s.reg q := by
  simp only [State.setFlagThenReg, State.reg_setReg]

/-- Two files of registers that read equally are equal. -/
theorem State.V_ext {s t : State} (h : ∀ r, s.reg r = t.reg r) : s.V = t.V := by
  apply Vector.ext
  intro i hi
  have := h (BitVec.ofNat 4 i)
  simpa [State.reg, Nat.mod_eq_of_lt hi] using this

theorem getElem_overlay {n : Nat} (old : Vector Byte n) (bytes : List Byte) (i : Nat) (h : i < n) :
    (overlay old bytes)[i] = (bytes[i]?).getD old[i] := by
  simp [overlay]

theorem State.length_regsTo (x : RegIx) : (s.regsTo x).length = x.toNat + 1 := by
  have := x.isLt
  simp [State.regsTo]; omega

/-- The i-th byte a bulk transfer to RAM or RPL moves is V[i]. -/
theorem State.regsTo_getElem? (x : RegIx) (i : Nat) (h : i ≤ x.toNat) :
    (s.regsTo x)[i]? = some (s.reg (BitVec.ofNat 4 i)) := by
  have hx := x.isLt
  have hi : i < 16 := by omega
  rw [State.regsTo, List.getElem?_take, if_pos (by omega)]
  simp [State.reg, Nat.mod_eq_of_lt hi, hi]

end Sys2Proof.Machine
end

