-- ==== Sys2Proof/Laws/Display.lean ====
section
/-! SUPPORT. What the display operations do, cell by cell: a toggle, the blitter over a list of cells none of which
stands twice, the cells a sprite lands on, and the scrolls. -/

namespace Sys2Proof.Machine

variable (d : Grid)

/-! ## Cells and toggles (45_display.md R235) -/

theorem Grid.cell_eq {gy : Nat} (gx : Nat) (h : gy < 64) : d.cell gx gy = d[gy].getLsbD gx := dif_pos h

/-- A cell outside the grid reads as unlit. -/
theorem Grid.cell_outside {gx gy : Nat} (h : ¬ (gx < 128 ∧ gy < 64)) : d.cell gx gy = false := by
  unfold Grid.cell
  split
  · exact BitVec.getLsbD_of_ge _ _ (by omega)
  · rfl

/-- A toggle flips one cell of the grid and no other. -/
theorem Grid.cell_toggle {gx gy : Nat} (hx : gx < 128) (hy : gy < 64) (ax ay : Nat) :
    (d.toggle gx gy).cell ax ay = (d.cell ax ay ^^ decide ((ax, ay) = (gx, gy))) := by
  unfold Grid.toggle
  rw [dif_pos hy]
  by_cases hay : ay < 64
  · rw [Grid.cell_eq _ _ hay, Grid.cell_eq _ _ hay]
    by_cases hrow : gy = ay
    · subst hrow
      by_cases hcol : ax = gx
      · subst hcol; simp [hx]
      · have : ¬ gx = ax := fun e => hcol e.symm
        simp [BitVec.getLsbD_twoPow, hcol, this]
    · have : ¬ ay = gy := fun e => hrow e.symm
      simp [Vector.getElem_set_ne, hrow, this]
  · have h : ¬ (ax < 128 ∧ ay < 64) := by omega
    have : ¬ ay = gy := by omega
    rw [Grid.cell_outside _ h, Grid.cell_outside _ h]; simp [this]

/-- Two grids with equal cells are equal. -/
theorem Grid.ext_cell {d e : Grid} (h : ∀ gx gy, gx < 128 → gy < 64 → d.cell gx gy = e.cell gx gy) : d = e := by
  apply Vector.ext
  intro gy hy
  apply BitVec.eq_of_getLsbD_eq
  intro gx hx
  have := h gx gy hx hy
  rwa [Grid.cell_eq _ _ hy, Grid.cell_eq _ _ hy] at this

/-- The cells of a list lie on the grid. -/
abbrev OnGrid (cells : List (Nat × Nat)) : Prop := ∀ c ∈ cells, c.1 < 128 ∧ c.2 < 64

/-- The blitter flips exactly the listed cells, when none stands twice. -/
theorem Grid.cell_blit {cells : List (Nat × Nat)} : ∀ {d : Grid}, OnGrid cells → cells.Nodup → ∀ ax ay,
    (d.blit cells).1.cell ax ay = (d.cell ax ay ^^ decide ((ax, ay) ∈ cells)) := by
  induction cells with
  | nil => intro d _ _ ax ay; simp [Grid.blit]
  | cons c cells ih =>
    intro d hg hn ax ay
    have hc := hg c (by simp)
    obtain ⟨hni, hn'⟩ := List.nodup_cons.1 hn
    have hrest := ih (d := d.toggle c.1 c.2) (fun e he => hg e (by simp [he])) hn' ax ay
    simp only [Grid.blit]
    rw [hrest, Grid.cell_toggle _ hc.1 hc.2]
    by_cases h1 : (ax, ay) = c
    · have : (ax, ay) ∉ cells := h1 ▸ hni
      simp [h1, hni]
    · simp [h1]

/-- The collision bit is set exactly when a listed cell was lit. -/
theorem Grid.blit_collision {cells : List (Nat × Nat)} : ∀ {d : Grid}, OnGrid cells → cells.Nodup →
    ((d.blit cells).2 = true ↔ ∃ c ∈ cells, d.cell c.1 c.2 = true) := by
  induction cells with
  | nil => intro d _ _; simp [Grid.blit]
  | cons c cells ih =>
    intro d hg hn
    have hc := hg c (by simp)
    obtain ⟨hni, hn'⟩ := List.nodup_cons.1 hn
    have hrest := ih (d := d.toggle c.1 c.2) (fun e he => hg e (by simp [he])) hn'
    simp only [Grid.blit, Bool.or_eq_true, hrest, List.exists_mem_cons_iff]
    refine or_congr Iff.rfl ⟨?_, ?_⟩
    · rintro ⟨e, he, h⟩
      refine ⟨e, he, ?_⟩
      rw [Grid.cell_toggle _ hc.1 hc.2] at h
      have : e ≠ c := fun q => hni (q ▸ he)
      simpa [this] using h
    · rintro ⟨e, he, h⟩
      refine ⟨e, he, ?_⟩
      rw [Grid.cell_toggle _ hc.1 hc.2]
      have : e ≠ c := fun q => hni (q ▸ he)
      simpa [this] using h

/-! ## The cells of a sprite (R231 to R234, R237) -/

/-- The two screens of the hardware (R230). -/
theorem State.screen_cases (s : State) : s.screen = Screen.high ∨ s.screen = Screen.low := by
  unfold State.screen; split <;> simp

/-- The cells of a logical pixel are those whose coordinates divided by the scale are the pixel's (R231). -/
theorem Screen.mem_pixelCells {m : Screen} (hS : 0 < m.S) (px py gx gy : Nat) :
    (gx, gy) ∈ m.pixelCells px py ↔ gx / m.S = px ∧ gy / m.S = py := by
  simp only [Screen.pixelCells, List.mem_flatMap, List.mem_range, List.mem_map, Prod.mk.injEq]
  constructor
  · rintro ⟨dy, hdy, dx, hdx, rfl, rfl⟩
    rw [Nat.mul_add_div hS, Nat.mul_add_div hS, Nat.div_eq_of_lt hdx, Nat.div_eq_of_lt hdy]
    simp
  · rintro ⟨rfl, rfl⟩
    exact ⟨gy % m.S, Nat.mod_lt _ hS, gx % m.S, Nat.mod_lt _ hS, Nat.div_add_mod _ _, Nat.div_add_mod _ _⟩

theorem Screen.nodup_pixelCells {m : Screen} (px py : Nat) : (m.pixelCells px py).Nodup := by
  unfold Screen.pixelCells
  rw [List.nodup_flatMap]
  refine ⟨fun dy _ => ?_, ?_⟩
  · exact List.Nodup.map (fun a b h => by simp only [Prod.mk.injEq] at h; omega) List.nodup_range
  · refine List.nodup_range.imp fun h => ?_
    intro c h1 h2
    simp only [List.mem_map, List.mem_range] at h1 h2
    obtain ⟨_, _, rfl⟩ := h1
    obtain ⟨_, _, h2⟩ := h2
    simp only [Prod.mk.injEq] at h2
    omega

/-- Pixel `(r, c)` of a sprite is lit. -/
def LitPixel (rows : List (List Bool)) (r c : Nat) : Prop := ∃ row, rows[r]? = some row ∧ row[c]? = some true

/-- The cells of a sprite: those of the lit pixels that are not clipped (R233, R237). -/
theorem Screen.mem_spriteCells {m : Screen} (hS : 0 < m.S) (rows : List (List Bool)) (x0 y0 gx gy : Nat) :
    (gx, gy) ∈ m.spriteCells rows x0 y0 ↔
      ∃ r c, LitPixel rows r c ∧ x0 + c < m.W ∧ y0 + r < m.H ∧ gx / m.S = x0 + c ∧ gy / m.S = y0 + r := by
  simp only [Screen.spriteCells, List.mem_flatMap, Prod.exists, List.mem_zipIdx_iff_getElem?, LitPixel]
  constructor
  · rintro ⟨row, r, hr, px, c, hc, h⟩
    split at h
    · rename_i hcond
      simp only [Bool.and_eq_true, decide_eq_true_eq] at hcond
      obtain ⟨⟨rfl, hw⟩, hh⟩ := hcond
      rw [Screen.mem_pixelCells hS] at h
      exact ⟨r, c, ⟨row, hr, hc⟩, hw, hh, h.1, h.2⟩
    · simp at h
  · rintro ⟨r, c, ⟨row, hr, hc⟩, hw, hh, hx, hy⟩
    refine ⟨row, r, hr, true, c, hc, ?_⟩
    rw [if_pos (by simp [hw, hh]), Screen.mem_pixelCells hS]
    exact ⟨hx, hy⟩

/-- No cell of a sprite stands twice (R235: "no cell is toggled twice"). -/
theorem Screen.nodup_spriteCells {m : Screen} (hS : 0 < m.S) (rows : List (List Bool)) (x0 y0 : Nat) :
    (m.spriteCells rows x0 y0).Nodup := by
  unfold Screen.spriteCells
  rw [List.nodup_flatMap]
  refine ⟨fun rowAt _ => ?_, ?_⟩
  · rw [List.nodup_flatMap]
    refine ⟨fun pixelAt _ => ?_, ?_⟩
    · split
      · exact Screen.nodup_pixelCells _ _
      · simp
    · have : (rowAt.1.zipIdx).Pairwise (fun a b => a.2 ≠ b.2) := by
        have := List.nodup_range' (s := 0) (n := rowAt.1.length) (step := 1)
        rw [← List.zipIdx_map_snd 0 rowAt.1, List.Nodup, List.pairwise_map] at this
        exact this
      refine this.imp fun {a b} hab => ?_
      intro c h1 h2
      dsimp only at h1 h2
      split at h1 <;> split at h2 <;> try simp at h1 h2
      rw [Screen.mem_pixelCells hS] at h1 h2
      omega
  · have : (rows.zipIdx).Pairwise (fun a b => a.2 ≠ b.2) := by
      have := List.nodup_range' (s := 0) (n := rows.length) (step := 1)
      rw [← List.zipIdx_map_snd 0 rows, List.Nodup, List.pairwise_map] at this
      exact this
    refine this.imp fun {a b} hab => ?_
    intro c h1 h2
    simp only [List.mem_flatMap] at h1 h2
    obtain ⟨p, _, h1⟩ := h1
    obtain ⟨q, _, h2⟩ := h2
    split at h1 <;> split at h2 <;> try simp at h1 h2
    rw [Screen.mem_pixelCells hS] at h1 h2
    omega

/-- The cells of a sprite lie on the grid. -/
theorem Screen.onGrid_spriteCells {m : Screen} (hm : m = Screen.high ∨ m = Screen.low)
    (rows : List (List Bool)) (x0 y0 : Nat) : OnGrid (m.spriteCells rows x0 y0) := by
  rintro ⟨gx, gy⟩ h
  have hS : 0 < m.S := by rcases hm with rfl | rfl <;> decide
  rw [Screen.mem_spriteCells hS] at h
  obtain ⟨r, c, -, hw, hh, hx, hy⟩ := h
  rcases hm with rfl | rfl <;> simp only [Screen.high, Screen.low] at * <;> omega

/-! ## Rows (R234, R236, R240) -/

/-- Column `c` of an expanded byte is bit `7 - c` (R234). -/
theorem expandByte_getElem? (b : Byte) (c : Nat) :
    (expandByte b)[c]? = if c < 8 then some (b.getLsbD (7 - c)) else none := by
  by_cases h : c < 8 <;> simp [expandByte, h]

/-- Pixel `(r, c)` of an 8-column sprite is bit `7 - c` of its r-th byte (R236). -/
theorem litPixel_smallRows (bytes : List Byte) (r c : Nat) :
    LitPixel (smallRows bytes) r c ↔ ∃ b, bytes[r]? = some b ∧ c < 8 ∧ b.getLsbD (7 - c) = true := by
  simp only [LitPixel, smallRows, List.getElem?_map, Option.map_eq_some_iff]
  constructor
  · rintro ⟨_, ⟨b, hb, rfl⟩, h⟩
    rw [expandByte_getElem?] at h
    split at h
    · exact ⟨b, hb, ‹_›, by simpa using h⟩
    · simp at h
  · rintro ⟨b, hb, hc, h⟩
    exact ⟨_, ⟨b, hb, rfl⟩, by rw [expandByte_getElem?, if_pos hc, h]⟩

/-- Pixel `(r, c)` of a 16-column sprite is bit `7 - c mod 8` of byte `2r + c / 8` (R240). -/
theorem litPixel_largeRows : ∀ {n : Nat} {bytes : List Byte}, bytes.length = 2 * n → ∀ r c,
    (LitPixel (largeRows bytes) r c ↔
      ∃ b, bytes[2 * r + c / 8]? = some b ∧ c < 16 ∧ b.getLsbD (7 - c % 8) = true) := by
  intro n
  induction n with
  | zero =>
    intro bytes h r c
    obtain rfl : bytes = [] := List.length_eq_zero_iff.1 (by omega)
    simp [LitPixel, largeRows]
  | succ n ih =>
    intro bytes h r c
    match bytes, h with
    | left :: right :: rest, h =>
      cases r with
      | zero =>
        simp only [LitPixel, largeRows, List.getElem?_cons_zero, Option.some.injEq, exists_eq_left',
          List.getElem?_append, expandByte_getElem?, show (expandByte left).length = 8 from rfl]
        by_cases h8 : c < 8
        · have h0 : c / 8 = 0 := by omega
          have h1 : c % 8 = c := by omega
          have h2 : c < 16 := by omega
          simp [h8, h0, h1, h2]
        · by_cases h16 : c < 16
          · have h0 : c / 8 = 1 := by omega
            have h1 : c % 8 = c - 8 := by omega
            have h2 : c - 8 < 8 := by omega
            simp [h8, h0, h1, h2, h16]
          · have h2 : ¬ c - 8 < 8 := by omega
            simp [h8, h2, h16]
      | succ r =>
        have hrest : rest.length = 2 * n := by simp only [List.length_cons] at h; omega
        have := ih hrest r c
        simp only [LitPixel, largeRows, List.getElem?_cons_succ] at this ⊢
        rw [this, show 2 * (r + 1) + c / 8 = (2 * r + c / 8) + 1 + 1 from by omega]
        simp only [List.getElem?_cons_succ]

/-! ## Clearing and scrolling (R241 to R246) -/

@[simp] theorem Grid.cell_blank (gx gy : Nat) : Grid.blank.cell gx gy = false := by
  by_cases h : gy < 64
  · rw [Grid.cell_eq _ _ h]; simp [Grid.blank]
  · exact Grid.cell_outside _ (by omega)

theorem Grid.cell_ofRows {row : Nat → BitVec 128} {gy : Nat} (gx : Nat) (h : gy < 64) :
    (Grid.ofRows row).cell gx gy = (row gy).getLsbD gx := by
  rw [Grid.cell_eq _ _ h]; simp [Grid.ofRows]

theorem Grid.row_getLsbD (gx gy : Nat) : (d.row gy).getLsbD gx = d.cell gx gy := by
  unfold Grid.row Grid.cell; split <;> simp

/-- Every cell receives the cell `k` columns to its left, or unlit (R243). -/
theorem Grid.cell_scrollRight (k : Nat) {gx gy : Nat} (hx : gx < 128) (hy : gy < 64) :
    (d.scrollRight k).cell gx gy = if gx ≥ k then d.cell (gx - k) gy else false := by
  rw [Grid.scrollRight, Grid.cell_ofRows _ hy, BitVec.getLsbD_shiftLeft, Grid.row_getLsbD]
  by_cases h : gx < k
  · simp [h, Nat.not_le.2 h]
  · simp [h, hx, Nat.not_lt.1 h]

/-- Every cell receives the cell `k` columns to its right, or unlit (R244). -/
theorem Grid.cell_scrollLeft (k : Nat) {gx gy : Nat} (hy : gy < 64) :
    (d.scrollLeft k).cell gx gy = if gx + k < 128 then d.cell (gx + k) gy else false := by
  rw [Grid.scrollLeft, Grid.cell_ofRows _ hy, BitVec.getLsbD_ushiftRight, Grid.row_getLsbD, Nat.add_comm k]
  split
  · rfl
  · exact Grid.cell_outside _ (by omega)

/-- Every cell receives the cell `n` rows above it, or unlit (R245). -/
theorem Grid.cell_scrollDown (n : Nat) {gx gy : Nat} (hy : gy < 64) :
    (d.scrollDown n).cell gx gy = if gy ≥ n then d.cell gx (gy - n) else false := by
  rw [Grid.scrollDown, Grid.cell_ofRows _ hy]
  split
  · exact Grid.row_getLsbD _ _ _
  · simp

/-- Drawing writes the grid and the flag register only, and the flag is the collision bit (R235, R236). -/
theorem State.drawSprite_spec (s : State) {m : Screen} (hm : m = Screen.high ∨ m = Screen.low)
    (rows : List (List Bool)) (vx vy : Byte) :
    let cells := m.spriteCells rows (vx.toNat % m.W) (vy.toNat % m.H)
    let t := s.drawSprite m rows vx vy
    (∀ ax ay, t.disp.cell ax ay = (s.disp.cell ax ay ^^ decide ((ax, ay) ∈ cells))) ∧
    (t.reg flagReg = flagByte (decide (∃ c ∈ cells, s.disp.cell c.1 c.2 = true))) ∧
    (∀ r, r ≠ flagReg → t.reg r = s.reg r) ∧
    t = { s with disp := t.disp, V := t.V } := by
  intro cells t
  have hS : 0 < m.S := by rcases hm with rfl | rfl <;> decide
  have hg := Screen.onGrid_spriteCells hm rows (vx.toNat % m.W) (vy.toNat % m.H)
  have hn := Screen.nodup_spriteCells hS rows (vx.toNat % m.W) (vy.toNat % m.H)
  refine ⟨fun ax ay => Grid.cell_blit hg hn ax ay, ?_, fun r hr => ?_, rfl⟩
  · show (State.setReg _ flagReg _).reg flagReg = _
    rw [State.reg_setReg, if_pos rfl]
    congr 1
    rw [Bool.eq_iff_iff, decide_eq_true_iff]
    exact Grid.blit_collision hg hn
  · show (State.setReg _ flagReg _).reg r = _
    rw [State.reg_setReg, if_neg hr]; rfl

end Sys2Proof.Machine
end

