-- ==== Sys2Proof/Laws/Memory.lean ====
section
/-! SUPPORT. The laws of RAM: a read after a write, the canonical form, and that a canonical memory is determined
by what it reads as. -/

namespace Sys2Proof.Machine

theorem Memory.read_cons (b a : Nat) (v : Byte) (m : Memory) :
    Memory.read ((b, v) :: m) a = if a = b then v else Memory.read m a := rfl

/-- An address below every listed one reads as an unlisted one. -/
theorem Memory.read_of_lt {m : Memory} {a : Nat} (h : ∀ c ∈ m, a < c.1) :
    Memory.read m a = Config.unlistedByte := by
  induction m with
  | nil => rfl
  | cons c m ih =>
    have hc := h c (by simp)
    rw [Memory.read_cons, if_neg (by omega)]
    exact ih fun d hd => h d (by simp [hd])

/-- Leaving out a cell that holds the unlisted byte changes no read, when nothing else lists its address. -/
theorem Memory.read_consCell {m : Memory} {b a : Nat} {v : Byte} (h : ∀ c ∈ m, b < c.1) :
    Memory.read (Memory.cons b v m) a = if a = b then v else Memory.read m a := by
  unfold Memory.cons
  split
  · rename_i hv
    split
    · rename_i hab; rw [hab, hv]; exact Memory.read_of_lt h
    · rfl
  · rfl

/-- One byte is written, every other one reads as before. -/
theorem Memory.read_write {m : Memory} (hm : m.wf) (a b : Nat) (v : Byte) :
    (Memory.write m a v).read b = if b = a then v else Memory.read m b := by
  induction m with
  | nil => exact Memory.read_consCell (by simp)
  | cons c m ih =>
    obtain ⟨hp, hc⟩ := hm
    rw [List.pairwise_cons] at hp
    simp only [Memory.write]
    split
    · rename_i hlt
      rw [Memory.read_consCell]
      intro d hd
      rcases List.mem_cons.1 hd with rfl | hd
      · exact hlt
      · exact Nat.lt_trans hlt (hp.1 d hd)
    · split
      · rename_i hlt heq
        rw [Memory.read_consCell (by rw [heq]; exact hp.1), Memory.read_cons]
        split
        · rfl
        · rw [if_neg (by omega)]
      · rename_i hlt hne
        have := ih ⟨hp.2, fun d hd => hc d (by simp [hd])⟩
        rw [Memory.read_cons, Memory.read_cons, this]
        split
        · rw [if_neg (by omega)]
        · rfl

theorem Memory.wf_consCell {m : Memory} (hm : m.wf) {a : Nat} (ha : a ≤ Config.ramTop) (v : Byte)
    (h : ∀ c ∈ m, a < c.1) : (Memory.cons a v m).wf := by
  unfold Memory.cons
  split
  · exact hm
  · rename_i hv
    refine ⟨List.pairwise_cons.2 ⟨h, hm.1⟩, fun c hc => ?_⟩
    rcases List.mem_cons.1 hc with rfl | hc
    · exact ⟨ha, hv⟩
    · exact hm.2 c hc

theorem Memory.mem_write {m : Memory} {a : Nat} {v : Byte} {c : Host.Cell}
    (h : c ∈ Memory.write m a v) : c = (a, v) ∨ c ∈ m := by
  induction m with
  | nil => unfold Memory.write Memory.cons at h; split at h <;> simp_all
  | cons d m ih =>
    simp only [Memory.write] at h
    split at h
    · unfold Memory.cons at h; split at h <;> simp_all
    · split at h
      · unfold Memory.cons at h; split at h <;> simp_all
        rcases h with h | h <;> simp [h]
      · rcases List.mem_cons.1 h with rfl | h
        · simp
        · rcases ih h with h | h <;> simp [h]

/-- A write to a RAM address keeps the canonical form. -/
theorem Memory.wf_write {m : Memory} (hm : m.wf) {a : Nat} (ha : a ≤ Config.ramTop) (v : Byte) :
    (Memory.write m a v).wf := by
  induction m with
  | nil => exact Memory.wf_consCell hm ha v (by simp)
  | cons c m ih =>
    obtain ⟨hp, hc⟩ := hm
    have hp' := List.pairwise_cons.1 hp
    have hm' : Memory.wf m := ⟨hp'.2, fun d hd => hc d (by simp [hd])⟩
    simp only [Memory.write]
    split
    · rename_i hlt
      refine Memory.wf_consCell ⟨hp, hc⟩ ha v fun d hd => ?_
      rcases List.mem_cons.1 hd with rfl | hd
      · exact hlt
      · exact Nat.lt_trans hlt (hp'.1 d hd)
    · split
      · rename_i hlt heq
        exact Memory.wf_consCell hm' ha v (by rw [heq]; exact hp'.1)
      · rename_i hlt hne
        have hw := ih hm'
        refine ⟨List.pairwise_cons.2 ⟨fun d hd => ?_, hw.1⟩, fun d hd => ?_⟩
        · rcases Memory.mem_write hd with rfl | hd
          · show c.1 < a; omega
          · exact hp'.1 d hd
        · rcases List.mem_cons.1 hd with rfl | hd
          · exact hc _ (by simp)
          · exact hw.2 d hd

/-- Every listed cell is what its address reads as. -/
theorem Memory.read_of_mem {m : Memory} (hm : m.wf) {c : Host.Cell} (h : c ∈ m) :
    Memory.read m c.1 = c.2 := by
  induction m with
  | nil => simp at h
  | cons d m ih =>
    obtain ⟨hp, hc⟩ := hm
    have hp' := List.pairwise_cons.1 hp
    rw [Memory.read_cons]
    rcases List.mem_cons.1 h with rfl | h
    · simp
    · have := hp'.1 c h
      rw [if_neg (by omega)]
      exact ih ⟨hp'.2, fun e he => hc e (by simp [he])⟩ h

end Sys2Proof.Machine
end

