-- ==== Sys2Proof/Laws/Ops.lean ====
section
/-! SUPPORT. Everything the shared operations can do, said once: committing, reading and writing bytes of RAM, the
call stack, fetching, the shape of a meaning's answer, and transactions. -/

namespace Sys2Proof.Machine

variable {s t : State}

/-! ## Committing and taking a fault (40_step_and_dispatch.md R126, 60_exceptions.md R296) -/

@[simp] theorem commit_ok (s t : State) : commit s (.ok t) = .next t := rfl

@[simp] theorem commit_error (s : State) (c : FaultCode) : commit s (.error c) = raise c s := rfl

@[simp] theorem except_bind_ok {α β : Type} (a : α) (f : α → Except FaultCode β) :
    (Except.ok a >>= f) = f a := rfl

@[simp] theorem except_bind_error {α β : Type} (c : FaultCode) (f : α → Except FaultCode β) :
    ((Except.error c : Except FaultCode α) >>= f) = .error c := rfl

/-- A committed rule answers a next state: the rule's own, or the old one with the fault taken. -/
theorem commit_cases (s : State) (r : Except FaultCode State) :
    (∃ t, r = .ok t ∧ commit s r = .next t) ∨
      ∃ c, r = .error c ∧ commit s r = .next { s with run := .halted c } := by
  cases r with
  | ok t => exact .inl ⟨t, rfl, rfl⟩
  | error c => exact .inr ⟨c, rfl, rfl⟩

/-! ## RAM (20_memory.md R63 to R68) -/

theorem ramTop_eq : Config.ramTop = 0xFFF := rfl

theorem fetchTop_eq : Config.fetchTop = 0xFFE := rfl

theorem State.memRead_ok {a : Nat} (h : a ≤ Config.ramTop) : s.memRead a = .ok (s.byteAt a) :=
  if_neg (Nat.not_lt.2 h)

theorem State.memRead_error {a : Nat} (h : Config.ramTop < a) : s.memRead a = .error .memOutOfRange :=
  if_pos h

theorem State.memWrite_ok {a : Nat} (h : a ≤ Config.ramTop) (v : Byte) :
    s.memWrite a v = .ok { s with mem := s.mem.write a v } :=
  if_neg (Nat.not_lt.2 h)

theorem State.memWrite_error {a : Nat} (h : Config.ramTop < a) (v : Byte) :
    s.memWrite a v = .error .memOutOfRange :=
  if_pos h

/-- Reading `n` bytes that all lie in RAM gives those bytes. -/
theorem State.readBytes_ok {n : Nat} : ∀ {a : Nat}, a + n ≤ Config.ramTop + 1 →
    s.readBytes a n = .ok ((List.range n).map fun i => s.byteAt (a + i)) := by
  induction n with
  | zero => intros; rfl
  | succ n ih =>
    intro a h
    rw [State.readBytes, State.memRead_ok (by omega), except_bind_ok, ih (by omega), except_bind_ok,
      List.range_succ_eq_map, List.map_cons, List.map_map]
    simp [Function.comp_def, Nat.add_assoc, Nat.add_comm 1]

/-- Reading bytes of which one lies outside RAM is MemOutOfRange. -/
theorem State.readBytes_error {n : Nat} : ∀ {a : Nat}, 0 < n → Config.ramTop + 1 < a + n →
    s.readBytes a n = .error .memOutOfRange := by
  induction n with
  | zero => intro a h; omega
  | succ n ih =>
    intro a _ h
    rw [State.readBytes]
    by_cases ha : a ≤ Config.ramTop
    · rw [State.memRead_ok ha, except_bind_ok, ih (by omega) (by omega), except_bind_error]
    · rw [State.memRead_error (by omega), except_bind_error]

/-- Reading bytes, in one equation. -/
theorem State.readBytes_eq (s : State) (a n : Nat) :
    s.readBytes a n = if n = 0 ∨ a + n ≤ 0x1000 then .ok ((List.range n).map fun i => s.byteAt (a + i))
      else .error .memOutOfRange := by
  split
  · rename_i h
    rcases h with rfl | h
    · rfl
    · exact State.readBytes_ok (by rw [ramTop_eq]; omega)
  · exact State.readBytes_error (by omega) (by rw [ramTop_eq]; omega)

/-- Writing bytes that all lie in RAM changes only RAM, keeps the canonical form, and makes exactly those
addresses read as those bytes. -/
theorem State.writeBytes_ok {bytes : List Byte} : ∀ {a : Nat} {s : State},
    a + bytes.length ≤ Config.ramTop + 1 →
    ∃ m, s.writeBytes a bytes = .ok { s with mem := m } ∧
      (s.mem.wf → m.wf ∧ ∀ b, Memory.read m b =
        if a ≤ b then (bytes[b - a]?).getD (s.byteAt b) else s.byteAt b) := by
  induction bytes with
  | nil => intro a s _; exact ⟨s.mem, rfl, fun h => ⟨h, fun b => by simp [State.byteAt]⟩⟩
  | cons v bytes ih =>
    intro a s h
    rw [List.length_cons] at h
    obtain ⟨m, hm, hw⟩ := ih (a := a + 1) (s := { s with mem := s.mem.write a v }) (by omega)
    refine ⟨m, ?_, fun hs => ?_⟩
    · rw [State.writeBytes, State.memWrite_ok (by omega), except_bind_ok, hm]
    · obtain ⟨hwf, hread⟩ := hw (Memory.wf_write hs (by omega) v)
      refine ⟨hwf, fun b => ?_⟩
      rw [hread b]
      simp only [State.byteAt, Memory.read_write hs]
      by_cases hb : a = b
      · subst hb; simp
      · have hba : ¬ b = a := fun e => hb e.symm
        by_cases hlt : a + 1 ≤ b
        · have hab : a ≤ b := by omega
          have hsub : b - a = (b - (a + 1)) + 1 := by omega
          rw [if_pos hlt, if_neg hba, if_pos hab, hsub, List.getElem?_cons_succ]
        · have hab : ¬ a ≤ b := by omega
          rw [if_neg hlt, if_neg hba, if_neg hab]

/-- Writing bytes of which one lies outside RAM is MemOutOfRange. -/
theorem State.writeBytes_error {bytes : List Byte} : ∀ {a : Nat} {s : State}, bytes ≠ [] →
    Config.ramTop + 1 < a + bytes.length → s.writeBytes a bytes = .error .memOutOfRange := by
  induction bytes with
  | nil => intro a s h; exact absurd rfl h
  | cons v bytes ih =>
    intro a s _ h
    rw [List.length_cons] at h
    rw [State.writeBytes]
    by_cases ha : a ≤ Config.ramTop
    · rw [State.memWrite_ok ha, except_bind_ok]
      exact ih (by rintro rfl; simp at h; omega) (by omega)
    · rw [State.memWrite_error (by omega), except_bind_error]

/-- Whatever the bytes, a successful write changes only RAM. -/
theorem State.writeBytes_frame {bytes : List Byte} : ∀ {a : Nat} {s t : State},
    s.writeBytes a bytes = .ok t → t = { s with mem := t.mem } ∧ (s.mem.wf → t.mem.wf) := by
  induction bytes with
  | nil => intro a s t h; cases h; exact ⟨rfl, id⟩
  | cons v bytes ih =>
    intro a s t h
    rw [State.writeBytes] at h
    by_cases ha : a ≤ Config.ramTop
    · rw [State.memWrite_ok ha, except_bind_ok] at h
      obtain ⟨he, hw⟩ := ih h
      exact ⟨he, fun hs => hw (Memory.wf_write hs ha v)⟩
    · rw [State.memWrite_error (by omega), except_bind_error] at h; cases h

/-! ## Call stack (10_state.md R35, R36) -/

theorem State.push_ok {v : Word} (h : s.sp < s.stackDepth) :
    s.push v = .ok { s with stack := v :: s.stack } := if_neg (Nat.not_le.2 h)

theorem State.push_error {v : Word} (h : s.stackDepth ≤ s.sp) : s.push v = .error .stackOverflow :=
  if_pos h

theorem State.pop_ok {v : Word} {rest : List Word} (h : s.stack = v :: rest) :
    s.pop = .ok (v, { s with stack := rest }) := by
  unfold State.pop; rw [h]

theorem State.pop_error (h : s.stack = []) : s.pop = .error .stackUnderflow := by
  unfold State.pop; rw [h]

/-! ## Fetch (40_step_and_dispatch.md R121) -/

theorem State.fetch_ok (h : s.pc.toNat ≤ Config.fetchTop) :
    s.fetch = .ok (Opcode.ofBytes (s.byteAt s.pc.toNat) (s.byteAt (s.pc.toNat + 1))) :=
  if_neg (Nat.not_lt.2 h)

theorem State.fetch_error (h : Config.fetchTop < s.pc.toNat) : s.fetch = .error .fetchOutOfRange :=
  if_pos h

/-! ## Index and mode checks (R198, R213, R238) -/

theorem rplIndex_ok {x : RegIx} (h : x.toNat ≤ 7) : rplIndex x = .ok () := if_neg (Nat.not_lt.2 h)

theorem rplIndex_error {x : RegIx} (h : 7 < x.toNat) : rplIndex x = .error .rplIndexOutOfRange := if_pos h

theorem keyIndex_ok {v : Byte} (h : v.toNat ≤ 15) : keyIndex v = .ok v.toNat := if_neg (Nat.not_lt.2 h)

theorem keyIndex_error {v : Byte} (h : 15 < v.toNat) : keyIndex v = .error .keyIndexOutOfRange := if_pos h

theorem State.requireHigh_ok (h : s.hires = true) : s.requireHigh = .ok () := if_pos h

theorem State.requireHigh_error (h : s.hires = false) : s.requireHigh = .error .modeViolation := by
  simp [State.requireHigh, h]

/-! ## Transactions (46_host_commands.md R271, R281) -/

/-- Taking the next command changes the model's input fields alone. -/
theorem State.dequeue_eq (s : State) :
    s.dequeue = { s with host := s.host.tail, draws := s.dequeue.draws } := by
  unfold State.dequeue; split <;> simp_all

@[simp] theorem showDispChanged_next (c : Command) (s t : State) :
    showDispChanged c s (.next t) = .next { t with dispChanged := c.dispChanged s t } := rfl

/-- A transaction answers a next state exactly when its command does, and then differs from it in the output alone. -/
theorem runNext_next {s t : State} : runNext s = .next t ↔
    ∃ u, transact s.nextCommand s.dequeue = .next u ∧
      t = { u with dispChanged := s.nextCommand.dispChanged s u } := by
  unfold runNext
  cases transact s.nextCommand s.dequeue <;> simp [showDispChanged, eq_comm]

theorem State.nextCommand_nil {s : State} (h : s.host = []) :
    s.nextCommand = .step (Config.freeRand s.draws) := by
  unfold State.nextCommand; rw [h]

theorem State.nextCommand_cons {s : State} {c : Command} {rest : List Command} (h : s.host = c :: rest) :
    s.nextCommand = c := by
  unfold State.nextCommand; rw [h]

end Sys2Proof.Machine
end

