-- ==== Sys2Proof/Laws/Meanings.lean ====
section
/-! SUPPORT. For each instruction that can fault, its meaning as one choice between its effect and its fault, so that
no later proof unfolds the meaning; and that a step answers a next state. -/

namespace Sys2Proof.Machine

variable (s : State)

/-! ## Control flow and keys -/

theorem execCall_eq (a : Addr12) : execCall a s =
    if s.sp < s.stackDepth then .next { s with stack := s.npc :: s.stack, pc := zextAddr a }
    else raise .stackOverflow s := by
  unfold execCall
  split
  · rw [State.push_ok ‹_›]; rfl
  · rw [State.push_error (Nat.not_lt.1 ‹_›)]; rfl

theorem execReturn_eq : execReturn s =
    match s.stack with
    | [] => raise .stackUnderflow s
    | v :: rest => .next { s with pc := v, stack := rest } := by
  unfold execReturn
  split
  · rw [State.pop_error ‹_›]; rfl
  · rw [State.pop_ok ‹_›]; rfl

theorem execSkipIfKey_eq (x : RegIx) : execSkipIfKey x s =
    if (s.reg x).toNat ≤ 15 then .next (s.skipIf (s.keyPressed (s.reg x).toNat))
    else raise .keyIndexOutOfRange s := by
  unfold execSkipIfKey
  split
  · rw [keyIndex_ok ‹_›]; rfl
  · rw [keyIndex_error (Nat.not_le.1 ‹_›)]; rfl

theorem execSkipIfNotKey_eq (x : RegIx) : execSkipIfNotKey x s =
    if (s.reg x).toNat ≤ 15 then .next (s.skipIf (!s.keyPressed (s.reg x).toNat))
    else raise .keyIndexOutOfRange s := by
  unfold execSkipIfNotKey
  split
  · rw [keyIndex_ok ‹_›]; rfl
  · rw [keyIndex_error (Nat.not_le.1 ‹_›)]; rfl

/-! ## Bulk transfers -/

/-- A store of bytes from `I`: an effect on RAM and the pc alone, or MemOutOfRange. -/
theorem commit_writeBytes (bytes : List Byte) (hb : bytes ≠ []) :
    (s.ea bytes.length ≤ 0x1000 ∧ ∃ m,
      (commit s do
        let t ← s.writeBytes (s.ea 0) bytes
        .ok t.advance) = .next { s with mem := m, pc := s.npc } ∧
      (s.mem.wf → m.wf ∧ ∀ b, Memory.read m b =
        if s.ea 0 ≤ b then (bytes[b - s.ea 0]?).getD (s.byteAt b) else s.byteAt b)) ∨
    (0x1000 < s.ea bytes.length ∧
      (commit s do
        let t ← s.writeBytes (s.ea 0) bytes
        .ok t.advance) = raise .memOutOfRange s) := by
  by_cases h : s.ea bytes.length ≤ 0x1000
  · obtain ⟨m, hm, hw⟩ := State.writeBytes_ok (s := s) (a := s.ea 0) (bytes := bytes)
      (by rw [ramTop_eq]; unfold State.ea at *; omega)
    exact .inl ⟨h, m, by rw [hm]; rfl, hw⟩
  · refine .inr ⟨Nat.not_le.1 h, ?_⟩
    rw [State.writeBytes_error hb (by rw [ramTop_eq]; unfold State.ea at *; omega)]
    rfl

/-- StoreDecimal: an effect on RAM and the pc alone, the three digits from `I`, or MemOutOfRange. -/
theorem execStoreDecimal_eq (x : RegIx) : ∃ m,
    execStoreDecimal x s =
      (if s.ea 2 ≤ 0xFFF then .next { s with mem := m, pc := s.npc } else raise .memOutOfRange s) ∧
    (s.ea 2 ≤ 0xFFF → s.mem.wf → m.wf ∧ ∀ b, Memory.read m b =
      if s.ea 0 ≤ b then ((decimalDigits (s.reg x))[b - s.ea 0]?).getD (s.byteAt b) else s.byteAt b) := by
  have hl : (decimalDigits (s.reg x)).length = 3 := rfl
  rcases commit_writeBytes s (decimalDigits (s.reg x)) (by simp [decimalDigits]) with ⟨h, m, hm, hr⟩ | ⟨h, hm⟩
  · exact ⟨m, by rw [if_pos (by simp only [hl, State.ea] at *; omega)]; exact hm, fun _ => hr⟩
  · exact ⟨[], by rw [if_neg (by simp only [hl, State.ea] at *; omega)]; exact hm,
      fun h' => by simp only [hl, State.ea] at *; omega⟩

/-- StoreRegisters: an effect on RAM and the pc alone, `V[0]` to `V[x]` from `I`, or MemOutOfRange. -/
theorem execStoreRegisters_eq (x : RegIx) : ∃ m,
    execStoreRegisters x s =
      (if s.ea x.toNat ≤ 0xFFF then .next { s with mem := m, pc := s.npc } else raise .memOutOfRange s) ∧
    (s.ea x.toNat ≤ 0xFFF → s.mem.wf → m.wf ∧ ∀ b, Memory.read m b =
      if s.ea 0 ≤ b then ((s.regsTo x)[b - s.ea 0]?).getD (s.byteAt b) else s.byteAt b) := by
  have hl := s.length_regsTo x
  rcases commit_writeBytes s (s.regsTo x) (by intro h; rw [h] at hl; simp at hl) with ⟨h, m, hm, hr⟩ | ⟨h, hm⟩
  · exact ⟨m, by rw [if_pos (by simp only [hl, State.ea] at *; omega)]; exact hm, fun _ => hr⟩
  · exact ⟨[], by rw [if_neg (by simp only [hl, State.ea] at *; omega)]; exact hm,
      fun h' => by simp only [hl, State.ea] at *; omega⟩

theorem execLoadRegisters_eq (x : RegIx) : execLoadRegisters x s =
    if s.ea x.toNat ≤ 0xFFF then
      .next { s with
        V := overlay s.V ((List.range (x.toNat + 1)).map fun i => s.byteAt (s.ea i)), pc := s.npc }
    else raise .memOutOfRange s := by
  unfold execLoadRegisters
  rw [State.readBytes_eq]
  by_cases h : s.ea x.toNat ≤ 0xFFF
  · rw [if_pos h, if_pos (Or.inr (by unfold State.ea at *; omega))]; rfl
  · rw [if_neg h, if_neg (by unfold State.ea at *; omega)]; rfl

theorem execStoreRegistersRPL_eq (x : RegIx) : execStoreRegistersRPL x s =
    if x.toNat ≤ 7 then .next { s with RPL := overlay s.RPL (s.regsTo x), pc := s.npc }
    else raise .rplIndexOutOfRange s := by
  unfold execStoreRegistersRPL
  split
  · rw [rplIndex_ok ‹_›]; rfl
  · rw [rplIndex_error (Nat.not_le.1 ‹_›)]; rfl

theorem execLoadRegistersRPL_eq (x : RegIx) : execLoadRegistersRPL x s =
    if x.toNat ≤ 7 then .next { s with V := overlay s.V (s.rplTo x), pc := s.npc }
    else raise .rplIndexOutOfRange s := by
  unfold execLoadRegistersRPL
  split
  · rw [rplIndex_ok ‹_›]; rfl
  · rw [rplIndex_error (Nat.not_le.1 ‹_›)]; rfl

/-! ## Display -/

/-- The bytes of a sprite at `I`. -/
def State.spriteBytes (s : State) (n : Nat) : List Byte := (List.range n).map fun i => s.byteAt (s.ea i)

theorem execDraw_eq (x y : RegIx) {n : Nibble} (hn : n ≠ 0x0#4) : execDraw x y n s =
    if s.ea n.toNat ≤ 0x1000 then
      .next (s.drawSprite s.screen (smallRows (s.spriteBytes n.toNat)) (s.reg x) (s.reg y)).advance
    else raise .memOutOfRange s := by
  have h0 : n.toNat ≠ 0 := fun h => hn (BitVec.eq_of_toNat_eq h)
  rw [execDraw, if_neg hn, State.readBytes_eq]
  by_cases h : s.ea n.toNat ≤ 0x1000
  · rw [if_pos h, if_pos (Or.inr (by unfold State.ea at *; omega))]; rfl
  · rw [if_neg h, if_neg (by unfold State.ea at *; omega)]; rfl

theorem execDrawLarge_eq (x y : RegIx) : execDrawLarge x y s =
    if s.hires = true then
      if s.ea 31 ≤ 0xFFF then
        .next (s.drawSprite Screen.high (largeRows (s.spriteBytes 32)) (s.reg x) (s.reg y)).advance
      else raise .memOutOfRange s
    else raise .modeViolation s := by
  unfold execDrawLarge
  by_cases hm : s.hires = true
  · rw [if_pos hm, State.requireHigh_ok hm, except_bind_ok, State.readBytes_eq]
    by_cases h : s.ea 31 ≤ 0xFFF
    · rw [if_pos h, if_pos (Or.inr (by unfold State.ea at *; omega))]; rfl
    · rw [if_neg h, if_neg (by unfold State.ea at *; omega)]; rfl
  · rw [if_neg hm, State.requireHigh_error (by simpa using hm)]; rfl

/-- A scroll: an effect on the grid and the pc alone in High mode, ModeViolation in Low mode. -/
theorem commit_requireHigh (d : Grid) :
    (commit s do
      s.requireHigh
      .ok { s with disp := d }.advance) =
    if s.hires = true then .next { s with disp := d, pc := s.npc } else raise .modeViolation s := by
  by_cases hm : s.hires = true
  · rw [if_pos hm, State.requireHigh_ok hm]; rfl
  · rw [if_neg hm, State.requireHigh_error (by simpa using hm)]; rfl

theorem execScrollRight_eq : execScrollRight s =
    if s.hires = true then .next { s with disp := s.disp.scrollRight 4, pc := s.npc } else raise .modeViolation s :=
  commit_requireHigh s _

theorem execScrollLeft_eq : execScrollLeft s =
    if s.hires = true then .next { s with disp := s.disp.scrollLeft 4, pc := s.npc } else raise .modeViolation s :=
  commit_requireHigh s _

theorem execScrollDown_eq (n : Nibble) : execScrollDown n s =
    if s.hires = true then .next { s with disp := s.disp.scrollDown n.toNat, pc := s.npc }
    else raise .modeViolation s :=
  commit_requireHigh s _

theorem State.spriteBytes_getElem? (n i : Nat) :
    (s.spriteBytes n)[i]? = if i < n then some (s.byteAt (s.ea i)) else none := by
  by_cases h : i < n <;> simp [State.spriteBytes, h]

theorem State.length_spriteBytes (n : Nat) : (s.spriteBytes n).length = n := by
  simp [State.spriteBytes]

end Sys2Proof.Machine
end

