-- ==== Sys2Proof/Laws/PerInstr.lean ====
section
/-! SUPPORT. Statements about every instruction as syntax, one lemma a constructor. CanonicalBits: the canonical
opcode has every ignored bit 0 (30_encoding.md R97). -/

namespace Sys2Proof.Laws.CanonicalBits

/-- The encoder sets no bit the decoder ignores; Invalid, whose every bit is ignored, encodes to 0. -/
def Statement (i : Instr) : Prop := encode i &&& i.usedBits = encode i

theorem of_full {w : Opcode} : w &&& 0xFFFF#16 = w := BitVec.and_allOnes (x := w)

theorem of_packByte (g : Nibble) (k : Byte) : packByte g 0x0#4 k &&& 0xF0FF#16 = packByte g 0x0#4 k := by
  rw [show (0xF0FF#16 : Opcode) = packByte 0xF#4 0x0#4 0xFF#8 from rfl, packByte_and]
  exact congr (congrArg₂ packByte (BitVec.and_allOnes (x := g)) rfl) (BitVec.and_allOnes (x := k))

theorem clearScreen : Statement .clearScreen := of_packByte _ _
theorem ret : Statement .ret := of_packByte _ _
theorem scrollRight : Statement .scrollRight := of_packByte _ _
theorem scrollLeft : Statement .scrollLeft := of_packByte _ _
theorem highResolutionOff : Statement .highResolutionOff := of_packByte _ _
theorem highResolutionOn : Statement .highResolutionOn := of_packByte _ _
theorem scrollDown (n : Nibble) : Statement (.scrollDown n) := by
  revert n; unfold Statement; decide
theorem jump (a : Addr12) : Statement (.jump a) := of_full
theorem call (a : Addr12) : Statement (.call a) := of_full
theorem skipIfEqualImm (x : RegIx) (k : Byte) : Statement (.skipIfEqualImm x k) := of_full
theorem skipIfUnequalImm (x : RegIx) (k : Byte) : Statement (.skipIfUnequalImm x k) := of_full
theorem skipIfEqualReg (x y : RegIx) : Statement (.skipIfEqualReg x y) := by
  revert x y; unfold Statement; decide
theorem loadImm (x : RegIx) (k : Byte) : Statement (.loadImm x k) := of_full
theorem addInPlace (x : RegIx) (k : Byte) : Statement (.addInPlace x k) := of_full
theorem loadReg (x y : RegIx) : Statement (.loadReg x y) := of_full
theorem orReg (x y : RegIx) : Statement (.orReg x y) := of_full
theorem andReg (x y : RegIx) : Statement (.andReg x y) := of_full
theorem xorReg (x y : RegIx) : Statement (.xorReg x y) := of_full
theorem add (x y : RegIx) : Statement (.add x y) := of_full
theorem sub (x y : RegIx) : Statement (.sub x y) := of_full
theorem shiftRight (x : RegIx) : Statement (.shiftRight x) := by
  revert x; unfold Statement; decide
theorem subReverse (x y : RegIx) : Statement (.subReverse x y) := of_full
theorem shiftLeft (x : RegIx) : Statement (.shiftLeft x) := by
  revert x; unfold Statement; decide
theorem skipIfUnequalReg (x y : RegIx) : Statement (.skipIfUnequalReg x y) := by
  revert x y; unfold Statement; decide
theorem setPointer (a : Addr12) : Statement (.setPointer a) := of_full
theorem jumpPlus (a : Addr12) : Statement (.jumpPlus a) := of_full
theorem random (x : RegIx) (k : Byte) : Statement (.random x k) := of_full
theorem drawLarge (x y : RegIx) : Statement (.drawLarge x y) := of_full
theorem draw (x y : RegIx) (n : Nibble) : Statement (.draw x y n) := of_full
theorem skipIfKey (x : RegIx) : Statement (.skipIfKey x) := of_full
theorem skipIfNotKey (x : RegIx) : Statement (.skipIfNotKey x) := of_full
theorem getTimer (x : RegIx) : Statement (.getTimer x) := of_full
theorem keyBlock (x : RegIx) : Statement (.keyBlock x) := of_full
theorem setTimer (x : RegIx) : Statement (.setTimer x) := of_full
theorem setSound (x : RegIx) : Statement (.setSound x) := of_full
theorem addPointer (x : RegIx) : Statement (.addPointer x) := of_full
theorem getDigit (x : RegIx) : Statement (.getDigit x) := of_full
theorem storeDecimal (x : RegIx) : Statement (.storeDecimal x) := of_full
theorem storeRegisters (x : RegIx) : Statement (.storeRegisters x) := of_full
theorem loadRegisters (x : RegIx) : Statement (.loadRegisters x) := of_full
theorem storeRegistersRPL (x : RegIx) : Statement (.storeRegistersRPL x) := of_full
theorem loadRegistersRPL (x : RegIx) : Statement (.loadRegistersRPL x) := of_full
theorem invalid : Statement .invalid := rfl

end Sys2Proof.Laws.CanonicalBits
end

