-- ==== Sys2Proof/Tests/Slice0.lean ====
section
/-! SUPPORT. The model's own tests: well-formedness, decoding by words written out from 30_encoding.md R96, single
steps with the expected results of 95_test_vectors.md (the vector is named in each comment), host commands, and a
witness for the hypotheses of every statement that has some. -/

namespace Sys2Proof.Tests

open Sys2Proof.Machine

/-! ## Helpers -/

/-- The next state of an answer; a test on an answer that is none would compare with the reset state. -/
def after : Result → State
  | .next t => t
  | .fault _ => State.reset
  | .refused _ => State.reset

/-- The start state of the vectors: the state after RESET with RAM and RPL all zero and STACK_DEPTH 16. -/
def start : State := State.reset

/-- `start` in High mode. -/
def high : State := { start with hires := true }

/-- Registers set one after the other. -/
def regs (l : List (RegIx × Byte)) (s : State) : State := l.foldl (fun s p => s.setReg p.1 p.2) s

/-- Bytes of RAM from an address on. -/
def bytes (a : Nat) : List Byte → State → State
  | [], s => s
  | b :: bs, s => bytes (a + 1) bs { s with mem := s.mem.write a b }

/-- A grid with exactly the listed cells lit. -/
def lit (l : List (Nat × Nat)) : Grid := l.foldl (fun d c => d.toggle c.1 c.2) Grid.blank

/-- `V[i] = first + i`. -/
def ramp (first : Nat) : Vector Byte 16 := Vector.ofFn fun i => BitVec.ofNat 8 (first + i.val)

/-- One step of the machine that fetches the opcode `w` at the pc. -/
def run1 (w : Nat) (s : State) : State := after (step (s.withFetchWord 16 w))

/-- One STEP of the opcode `w` with the byte `r` on `rand`. -/
def runRand (r : Byte) (w : Nat) (s : State) : State := after (transact (.step r) (s.withFetchWord 16 w))

/-! ## Well-formedness -/

/-- Draw with nibble 0 is no instruction (R96 row 29), and its meaning stops on it by name. -/
theorem test_wellFormed_draw :
    ¬ (Instr.draw 1 2 0).WellFormed ∧ (Instr.draw 1 2 1).WellFormed ∧ (Instr.draw 1 2 15).WellFormed ∧
      execDraw 1 2 0 start = .fault .notAnInstruction := ⟨by decide, by decide, by decide, rfl⟩

/-! ## Decoding: one word of every row of R96, bit by bit -/

theorem test_decode_group0 :
    decode 0b0000000011100000#16 = .clearScreen ∧ decode 0b0000000011101110#16 = .ret ∧
    decode 0b0000000011111011#16 = .scrollRight ∧ decode 0b0000000011111100#16 = .scrollLeft ∧
    decode 0b0000000011111110#16 = .highResolutionOff ∧ decode 0b0000000011111111#16 = .highResolutionOn ∧
    decode 0b0000000011000111#16 = .scrollDown 0x7#4 := by decide

theorem test_decode_addresses :
    decode 0b0001001000110100#16 = .jump 0x234#12 ∧ decode 0b0010001000110100#16 = .call 0x234#12 ∧
    decode 0b1010001000110100#16 = .setPointer 0x234#12 ∧ decode 0b1011001011111110#16 = .jumpPlus 0x2FE#12 := by
  decide

theorem test_decode_bytes :
    decode 0b0011101000000101#16 = .skipIfEqualImm 0xA#4 0x05#8 ∧
    decode 0b0100101000000101#16 = .skipIfUnequalImm 0xA#4 0x05#8 ∧
    decode 0b0110111110101011#16 = .loadImm 0xF#4 0xAB#8 ∧
    decode 0b0111000111111110#16 = .addInPlace 0x1#4 0xFE#8 ∧
    decode 0b1100000111110000#16 = .random 0x1#4 0xF0#8 := by decide

theorem test_decode_registers :
    decode 0b0101000100100000#16 = .skipIfEqualReg 0x1#4 0x2#4 ∧
    decode 0b1001000100100000#16 = .skipIfUnequalReg 0x1#4 0x2#4 ∧
    decode 0b1000000100100000#16 = .loadReg 0x1#4 0x2#4 ∧ decode 0b1000000100100001#16 = .orReg 0x1#4 0x2#4 ∧
    decode 0b1000000100100010#16 = .andReg 0x1#4 0x2#4 ∧ decode 0b1000000100100011#16 = .xorReg 0x1#4 0x2#4 ∧
    decode 0b1000000100100100#16 = .add 0x1#4 0x2#4 ∧ decode 0b1000000100100101#16 = .sub 0x1#4 0x2#4 ∧
    decode 0b1000000100000110#16 = .shiftRight 0x1#4 ∧ decode 0b1000000100100111#16 = .subReverse 0x1#4 0x2#4 ∧
    decode 0b1000000100001110#16 = .shiftLeft 0x1#4 ∧ decode 0b1101000100100000#16 = .drawLarge 0x1#4 0x2#4 ∧
    decode 0b1101000100101111#16 = .draw 0x1#4 0x2#4 0xF#4 := by decide

theorem test_decode_groupEF :
    decode 0b1110000110011110#16 = .skipIfKey 0x1#4 ∧ decode 0b1110000110100001#16 = .skipIfNotKey 0x1#4 ∧
    decode 0b1111010000000111#16 = .getTimer 0x4#4 ∧ decode 0b1111010000001010#16 = .keyBlock 0x4#4 ∧
    decode 0b1111010000010101#16 = .setTimer 0x4#4 ∧ decode 0b1111010000011000#16 = .setSound 0x4#4 ∧
    decode 0b1111010000011110#16 = .addPointer 0x4#4 ∧ decode 0b1111010000101001#16 = .getDigit 0x4#4 ∧
    decode 0b1111010000110011#16 = .storeDecimal 0x4#4 ∧ decode 0b1111010001010101#16 = .storeRegisters 0x4#4 ∧
    decode 0b1111010001100101#16 = .loadRegisters 0x4#4 ∧
    decode 0b1111010001110101#16 = .storeRegistersRPL 0x4#4 ∧
    decode 0b1111010010000101#16 = .loadRegistersRPL 0x4#4 := by decide

/-- V-E1 to V-E3, V-E5 to V-E7: the ignored bits. -/
theorem test_decode_ignored :
    decode 0x0FE0#16 = .clearScreen ∧ decode 0x07EE#16 = .ret ∧ decode 0x03C7#16 = .scrollDown 0x7#4 ∧
    decode 0x512F#16 = .skipIfEqualReg 0x1#4 0x2#4 ∧ decode 0x9127#16 = .skipIfUnequalReg 0x1#4 0x2#4 ∧
    decode 0x81A6#16 = .shiftRight 0x1#4 := by decide

/-- V-E4, V-E8, V-E10, V-E11: Invalid. -/
theorem test_decode_invalid :
    decode 0x00FD#16 = .invalid ∧ decode 0x00B1#16 = .invalid ∧ decode 0x0000#16 = .invalid ∧
    decode 0x8018#16 = .invalid ∧ decode 0x801F#16 = .invalid ∧ decode 0xE19F#16 = .invalid ∧
    decode 0xF030#16 = .invalid ∧ decode 0xF1FF#16 = .invalid := by decide

/-- R61, R90: the first byte is the most significant one, and one byte is no instruction. -/
theorem test_decodeBytes :
    (decodeBytes [0x12#8, 0x34#8, 0x56#8]).toOption = some (.jump 0x234#12, [0x56#8]) ∧
    (decodeBytes [0x12#8]).toOption = none := by decide

theorem test_decodeTableWord :
    decodeTableWord 16 0xD12F = some (.draw 0x1#4 0x2#4 0xF#4) ∧ decodeTableWord 16 0x0000 = some .invalid ∧
    decodeTableWord 8 0xFF00 = some .invalid := by decide

/-- R105: the canonical opcodes an assembler emits. -/
theorem test_encode :
    encode (.scrollDown 0x3#4) = 0x00C3#16 ∧ encode (.skipIfEqualReg 0x1#4 0x2#4) = 0x5120#16 ∧
    encode (.shiftLeft 0xF#4) = 0x8F0E#16 ∧ encode (.jumpPlus 0x2FE#12) = 0xB2FE#16 ∧
    encode (.loadRegistersRPL 0x7#4) = 0xF785#16 := by decide

/-! ## Control flow -/

/-- V-C1. -/
theorem test_jump : (run1 0x1235 start).pc = 0x0235#16 := by decide

/-- V-C3, V-C5. -/
theorem test_jumpPlus :
    (run1 0xB2FE (regs [(0, 0x40), (2, 0x03)] start)).pc = 0x0301#16 ∧
    (run1 0xBFFF (regs [(15, 0xFF)] start)).pc = 0x10FE#16 := by decide

/-- V-C6, V-C8. -/
theorem test_call :
    (run1 0x2300 start).stack = [0x0202#16] ∧ (run1 0x2300 start).pc = 0x0300#16 ∧
    (run1 0x2300 { start with stack := List.replicate 16 0x0202#16 }).run = .halted .stackOverflow ∧
    (run1 0x2300 { start with stack := List.replicate 16 0x0202#16 }).pc = 0x0200#16 := by decide

/-- V-C7. -/
theorem test_call_last_entry :
    (run1 0x2300 { start with stack := List.replicate 15 0x0202#16 }).sp = 16 ∧
    (run1 0x2300 { start with stack := List.replicate 15 0x0202#16 }).run = .running := by decide

/-- V-C10, V-C11. -/
theorem test_return :
    (run1 0x07EE { start with stack := [0x0ABC#16] }).pc = 0x0ABC#16 ∧
    (run1 0x07EE { start with stack := [0x0ABC#16] }).sp = 0 ∧
    (run1 0x00EE start).run = .halted .stackUnderflow ∧ (run1 0x00EE start).pc = 0x0200#16 := by decide

/-- V-C12. -/
theorem test_skipIfEqualImm :
    (run1 0x3A05 (regs [(10, 0x05)] start)).pc = 0x0204#16 ∧
    (run1 0x3A05 (regs [(10, 0x06)] start)).pc = 0x0202#16 := by decide

/-- V-C13. -/
theorem test_skipIfUnequalImm :
    (run1 0x4A05 (regs [(10, 0x05)] start)).pc = 0x0202#16 ∧
    (run1 0x4A05 (regs [(10, 0x06)] start)).pc = 0x0204#16 := by decide

/-- V-C14, V-C15. -/
theorem test_skipIfEqualReg :
    (run1 0x512F (regs [(1, 0x07), (2, 0x07)] start)).pc = 0x0204#16 ∧
    (run1 0x5110 (regs [(1, 0x07)] start)).pc = 0x0204#16 := by decide

/-- V-C16, V-C17. -/
theorem test_skipIfUnequalReg :
    (run1 0x9127 (regs [(1, 0x01), (2, 0x02)] start)).pc = 0x0204#16 ∧
    (run1 0x9110 (regs [(1, 0x07)] start)).pc = 0x0202#16 := by decide

/-- V-C18: a skip at 0xFFE leaves 0x1002. -/
theorem test_skip_at_top : (run1 0x3000 { start with pc := 0x0FFE#16 }).pc = 0x1002#16 := by decide

/-- V-C20: nothing is fetched from 0xFFF. -/
theorem test_fetch_past_ram :
    (after (step { start with pc := 0x0FFF#16 })).run = .halted .fetchOutOfRange ∧
    (after (step { start with pc := 0x0FFF#16 })).pc = 0x0FFF#16 := by decide

/-- §2.1 of the vectors: 0x8018 is a no-op. -/
theorem test_invalid :
    let t := run1 0x8018 (regs [(0, 0x01), (1, 0x02), (15, 0x03)] start)
    t.V = (regs [(0, 0x01), (1, 0x02), (15, 0x03)] start).V ∧ t.pc = 0x0202#16 ∧ t.run = .running := by decide

/-! ## Loads, ALU, Random -/

/-- V-A1. -/
theorem test_loadImm : (run1 0x6FAB start).reg 15 = 0xAB#8 := by decide

/-- V-A2, V-A3. -/
theorem test_addInPlace :
    (run1 0x71FF (regs [(15, 0x55)] start)).reg 1 = 0xFF#8 ∧
    (run1 0x71FF (regs [(15, 0x55)] start)).reg 15 = 0x55#8 ∧
    (run1 0x7F01 (regs [(15, 0xFF)] start)).reg 15 = 0x00#8 := by decide

/-- V-A4. -/
theorem test_loadReg : (run1 0x8120 (regs [(2, 0x33)] start)).reg 1 = 0x33#8 := by decide

/-- V-A5. -/
theorem test_or :
    (run1 0x8121 (regs [(1, 0xA0), (2, 0x0A), (15, 0x77)] start)).reg 1 = 0xAA#8 ∧
    (run1 0x8121 (regs [(1, 0xA0), (2, 0x0A), (15, 0x77)] start)).reg 15 = 0x77#8 := by decide

/-- V-A6. -/
theorem test_and : (run1 0x8122 (regs [(1, 0xF3), (2, 0x3F)] start)).reg 1 = 0x33#8 := by decide

/-- V-A7. -/
theorem test_xor : (run1 0x8113 (regs [(1, 0x5A)] start)).reg 1 = 0x00#8 := by decide

/-- S5, V-A9. -/
theorem test_add :
    (run1 0x8124 (regs [(1, 0xFE), (2, 0x03)] start)).reg 1 = 0x01#8 ∧
    (run1 0x8124 (regs [(1, 0xFE), (2, 0x03)] start)).reg 15 = 0x01#8 ∧
    (run1 0x8124 (regs [(1, 0xFF), (2, 0x00), (15, 0x07)] start)).reg 15 = 0x00#8 := by decide

/-- V-A11, V-A12: register 0xF as destination, and as operand. -/
theorem test_add_flag_register :
    (run1 0x8F14 (regs [(15, 0xF0), (1, 0x20)] start)).reg 15 = 0x10#8 ∧
    (run1 0x81F4 (regs [(1, 0x20), (15, 0xF0)] start)).reg 1 = 0x10#8 ∧
    (run1 0x81F4 (regs [(1, 0x20), (15, 0xF0)] start)).reg 15 = 0x01#8 := by decide

/-- S7, V-A13. -/
theorem test_sub :
    (run1 0x8125 (regs [(1, 0x03), (2, 0x05)] start)).reg 1 = 0xFE#8 ∧
    (run1 0x8125 (regs [(1, 0x03), (2, 0x05)] start)).reg 15 = 0x00#8 ∧
    (run1 0x8125 (regs [(1, 0x44), (2, 0x44)] start)).reg 15 = 0x01#8 := by decide

/-- V-A15. -/
theorem test_sub_flag_register : (run1 0x8F15 (regs [(15, 0x05), (1, 0x03)] start)).reg 15 = 0x02#8 := by decide

/-- V-A17. -/
theorem test_subReverse :
    (run1 0x8127 (regs [(1, 0x03), (2, 0x05)] start)).reg 1 = 0x02#8 ∧
    (run1 0x8127 (regs [(1, 0x05), (2, 0x03)] start)).reg 1 = 0xFE#8 ∧
    (run1 0x8127 (regs [(1, 0x05), (2, 0x03)] start)).reg 15 = 0x00#8 := by decide

/-- V-A18. -/
theorem test_subReverse_flag_register :
    (run1 0x8F17 (regs [(15, 0x05), (1, 0x03)] start)).reg 15 = 0xFE#8 := by decide

/-- S8, V-A20, V-A21. -/
theorem test_shiftRight :
    (run1 0x8106 (regs [(1, 0x03)] start)).reg 15 = 0x01#8 ∧
    (run1 0x81A6 (regs [(1, 0xFF), (10, 0x12)] start)).reg 1 = 0x7F#8 ∧
    (run1 0x8F06 (regs [(15, 0x03)] start)).reg 15 = 0x01#8 := by decide

/-- S9, V-A23, V-A24. -/
theorem test_shiftLeft :
    (run1 0x810E (regs [(1, 0x81)] start)).reg 1 = 0x02#8 ∧ (run1 0x810E (regs [(1, 0x81)] start)).reg 15 = 0x01#8 ∧
    (run1 0x810E (regs [(1, 0x7F), (15, 0x01)] start)).reg 15 = 0x00#8 ∧
    (run1 0x8F0E (regs [(15, 0x81)] start)).reg 15 = 0x02#8 := by decide

/-- V-A25, V-A27. -/
theorem test_random :
    (runRand 0xFF#8 0xC1F0 start).reg 1 = 0xF0#8 ∧ (runRand 0xA7#8 0xC30F start).reg 3 = 0x07#8 := by decide

/-! ## Pointer, decimal, bulk transfers -/

/-- V-M1. -/
theorem test_setPointer : (run1 0xAFFF start).I = 0x0FFF#16 := by decide

/-- V-M2, V-M3. -/
theorem test_addPointer :
    (run1 0xF21E (regs [(2, 0x20)] { start with I := 0x0FF0#16 })).I = 0x1010#16 ∧
    (run1 0xF21E (regs [(2, 0x20), (15, 0x09)] { start with I := 0xFFF0#16 })).I = 0x0010#16 ∧
    (run1 0xF21E (regs [(2, 0x20), (15, 0x09)] { start with I := 0xFFF0#16 })).reg 15 = 0x09#8 := by decide

/-- V-M4. -/
theorem test_getDigit :
    (run1 0xF129 (regs [(1, 0x0F)] start)).I = 0x004B#16 ∧ (run1 0xF129 (regs [(1, 0xFF)] start)).I = 0x04FB#16 := by
  decide

/-- V-M7: the zero byte at 0xFFE is not listed. -/
theorem test_storeDecimal :
    (run1 0xF133 (regs [(1, 0x6B)] { start with I := 0x0FFD#16 })).mem =
      [(0x200, 0xF1#8), (0x201, 0x33#8), (0xFFD, 0x01#8), (0xFFF, 0x07#8)] := by decide

/-- V-M8. -/
theorem test_storeDecimal_past_ram :
    let t := run1 0xF133 (bytes 0xFFE [0xAA, 0xBB] (regs [(1, 0x6B)] { start with I := 0x0FFE#16 }))
    t.run = .halted .memOutOfRange ∧ t.byteAt 0xFFE = 0xAA#8 ∧ t.pc = 0x0200#16 := by decide

/-- V-M10. -/
theorem test_storeRegisters :
    let t := run1 0xFF55 { start with V := ramp 0xA0, I := 0x0FF0#16 }
    t.byteAt 0xFF0 = 0xA0#8 ∧ t.byteAt 0xFFF = 0xAF#8 ∧ t.I = 0x0FF0#16 := by decide

/-- V-M9, V-M11. -/
theorem test_storeRegisters_range :
    (run1 0xF055 (regs [(0, 0x11), (1, 0x22)] { start with I := 0x0400#16 })).byteAt 0x401 = 0x00#8 ∧
    (run1 0xFF55 { start with V := ramp 0xA0, I := 0x0FF1#16 }).run = .halted .memOutOfRange ∧
    (run1 0xFF55 { start with V := ramp 0xA0, I := 0x0FF1#16 }).byteAt 0xFF1 = 0x00#8 := by decide

/-- V-M12. -/
theorem test_loadRegisters :
    let t := run1 0xF265 (bytes 0x400 [0x01, 0x02, 0x03, 0x04] (regs [(3, 0x77)] { start with I := 0x0400#16 }))
    t.reg 0 = 0x01#8 ∧ t.reg 2 = 0x03#8 ∧ t.reg 3 = 0x77#8 ∧ t.I = 0x0400#16 := by decide

/-- V-M14. -/
theorem test_loadRegisters_past_ram :
    let t := run1 0xF165 (regs [(0, 0x05), (1, 0x06)] { start with I := 0x0FFF#16 })
    t.run = .halted .memOutOfRange ∧ t.reg 0 = 0x05#8 := by decide

/-- V-M16, V-M17. -/
theorem test_storeRegistersRPL :
    (run1 0xF775 { start with V := ramp 1 }).RPL = #v[1, 2, 3, 4, 5, 6, 7, 8] ∧
    (run1 0xF875 { start with V := ramp 1 }).run = .halted .rplIndexOutOfRange := by decide

/-- V-M18, V-M19. -/
theorem test_loadRegistersRPL :
    (run1 0xF085 { start with RPL := #v[0xAA, 0xBB, 0, 0, 0, 0, 0, 0] }).reg 0 = 0xAA#8 ∧
    (run1 0xF085 { start with RPL := #v[0xAA, 0xBB, 0, 0, 0, 0, 0, 0] }).reg 1 = 0x00#8 ∧
    (run1 0xFF85 { start with RPL := #v[0xAA, 0xBB, 0, 0, 0, 0, 0, 0] }).run = .halted .rplIndexOutOfRange := by
  decide

/-! ## Timers and keys -/

/-- V-K1. -/
theorem test_getTimer : (run1 0xF407 { start with DT := 0x3C#8 }).reg 4 = 0x3C#8 := by decide

/-- V-K2. -/
theorem test_setTimer : (run1 0xF415 (regs [(4, 0xFF)] { start with DT := 0x03#8 })).DT = 0xFF#8 := by decide

/-- V-K3. -/
theorem test_setSound :
    (run1 0xF418 (regs [(4, 0x02)] start)).ST = 0x02#8 ∧ (run1 0xF418 (regs [(4, 0x02)] start)).DT = 0x00#8 := by
  decide

/-- V-K4. -/
theorem test_skipIfKey :
    (run1 0xE19E (regs [(1, 0x05)] { start with keys := 0x0020#16 })).pc = 0x0204#16 ∧
    (run1 0xE19E (regs [(1, 0x05)] { start with keys := 0xFFDF#16 })).pc = 0x0202#16 := by decide

/-- V-K6, V-K7. -/
theorem test_skipIfKey_index :
    (run1 0xE19E (regs [(1, 0x0F)] { start with keys := 0x8000#16 })).pc = 0x0204#16 ∧
    (run1 0xE19E (regs [(1, 0x10)] { start with keys := 0xFFFF#16 })).run = .halted .keyIndexOutOfRange := by decide

/-- V-K5. -/
theorem test_skipIfNotKey :
    (run1 0xE1A1 (regs [(1, 0x05)] { start with keys := 0x0020#16 })).pc = 0x0202#16 ∧
    (run1 0xE1A1 (regs [(1, 0x05)] start)).pc = 0x0204#16 := by decide

/-- V-K8. -/
theorem test_skipIfNotKey_index :
    (run1 0xE1A1 (regs [(1, 0xFF)] start)).run = .halted .keyIndexOutOfRange := by decide

/-- V-K9. -/
theorem test_keyBlock :
    (run1 0xFF0A (regs [(15, 0x09)] start)).run = .awaitingKey 0xF#4 ∧
    (run1 0xFF0A (regs [(15, 0x09)] start)).pc = 0x0202#16 ∧
    (run1 0xFF0A (regs [(15, 0x09)] start)).reg 15 = 0x09#8 := by decide

/-! ## Display -/

/-- V-D7: Low mode, the origin reduced modulo 64 and 32, a 2 x 2 block. -/
theorem test_draw_low :
    (run1 0xD011 (bytes 0x300 [0x80] (regs [(0, 0x41), (1, 0x21)] { start with I := 0x0300#16 }))).disp =
      lit [(2, 2), (3, 2), (2, 3), (3, 3)] := by decide

/-- V-D8, V-D11: High mode, clipped at the right edge; a collision. -/
theorem test_draw_high :
    (run1 0xD011 (bytes 0x300 [0xFF] (regs [(0, 0x7D)] { high with I := 0x0300#16 }))).disp =
      lit [(125, 0), (126, 0), (127, 0)] ∧
    (run1 0xD011 (bytes 0x300 [0xC0] { high with I := 0x0300#16, disp := lit [(1, 0), (5, 5)] })).disp =
      lit [(0, 0), (5, 5)] ∧
    (run1 0xD011 (bytes 0x300 [0xC0] { high with I := 0x0300#16, disp := lit [(1, 0), (5, 5)] })).reg 15 =
      0x01#8 := by decide

/-- V-D14: one byte past RAM, and nothing is drawn. -/
theorem test_draw_past_ram :
    (run1 0xD012 (bytes 0xFFF [0xFF] { high with I := 0x0FFF#16 })).run = .halted .memOutOfRange ∧
    (run1 0xD012 (bytes 0xFFF [0xFF] { high with I := 0x0FFF#16 })).disp = Grid.blank := by decide

/-- V-D21. -/
theorem test_drawLarge :
    (run1 0xD010 (bytes 0x300 [0x80, 0x01, 0x00, 0x80] { high with I := 0x0300#16 })).disp =
      lit [(0, 0), (15, 0), (8, 1)] := by decide

/-- V-D18, V-D19: the mode is tested first. -/
theorem test_drawLarge_faults :
    (run1 0xD010 { high with I := 0x0FE1#16 }).run = .halted .memOutOfRange ∧
    (run1 0xD010 { start with I := 0x0FE1#16 }).run = .halted .modeViolation := by decide

/-- V-D30. -/
theorem test_scrollRight :
    (run1 0x00FB { high with disp := lit [(0, 0), (123, 5), (124, 5), (127, 63)] }).disp =
      lit [(4, 0), (127, 5)] := by decide

/-- V-D31. -/
theorem test_scrollLeft :
    (run1 0x00FC { high with disp := lit [(0, 0), (3, 9), (4, 9), (127, 63)] }).disp =
      lit [(0, 9), (123, 63)] := by decide

/-- V-D32. -/
theorem test_scrollDown :
    (run1 0x00C3 { high with disp := lit [(10, 0), (10, 60), (10, 61)] }).disp = lit [(10, 3), (10, 63)] := by decide

/-- V-D35. -/
theorem test_scrolls_low :
    (run1 0x00C0 start).run = .halted .modeViolation ∧ (run1 0x00FB start).run = .halted .modeViolation ∧
    (run1 0x00FC start).run = .halted .modeViolation := by decide

/-- V-D37. -/
theorem test_clearScreen :
    (run1 0x00E0 (regs [(15, 0x01)] { start with disp := lit [(0, 0), (127, 63)] })).disp = Grid.blank ∧
    (run1 0x00E0 (regs [(15, 0x01)] { start with disp := lit [(0, 0), (127, 63)] })).reg 15 = 0x01#8 := by decide

/-- V-D40. -/
theorem test_highResolutionOn :
    (run1 0x00FF { start with disp := lit [(3, 3)] }).hires = true ∧
    (run1 0x00FF { start with disp := lit [(3, 3)] }).disp = lit [(3, 3)] := by decide

/-- V-D41. -/
theorem test_highResolutionOff :
    (run1 0x00FE { high with disp := lit [(3, 3)] }).hires = false ∧
    (run1 0x00FE { high with disp := lit [(3, 3)] }).disp = lit [(3, 3)] := by decide

/-! ## Host commands -/

/-- V-H1, V-H3. -/
theorem test_tick :
    (start.commandTick.DT, { start with DT := 2#8 }.commandTick.DT, { start with DT := 2#8 }.commandTick.ST) =
      (0#8, 1#8, 0#8) ∧
    { start with run := .halted .stackUnderflow, DT := 5#8 }.commandTick.DT = 4#8 := by decide

/-- V-H4, V-H5. -/
theorem test_keyResolve :
    start.commandKeyResolve 0x9#4 = start ∧
    ({ start with run := .awaitingKey 0x0#4 }.commandKeyResolve 0xF#4).reg 0 = 0x0F#8 ∧
    ({ start with run := .awaitingKey 0x0#4 }.commandKeyResolve 0xF#4).run = .running := by decide

/-- V-D37 ("chg = 1") and R281: ClearScreen on a lit grid sets `disp_changed`, and on a blank one does not. -/
theorem test_dispChanged_step :
    (run1 0x00E0 { start with disp := lit [(127, 63)] }).dispChanged = true ∧
    (run1 0x00E0 { start with dispChanged := true }).dispChanged = false := by decide

/-- R281, R272: any command but STEP answers 0; IDLE does so at least where it was 0, on which R278 and R281 agree. -/
theorem test_dispChanged_other :
    (after (step { start with dispChanged := false, host := [.idle] })).dispChanged = false ∧
    ∀ c ∈ [Command.tick, .keyResolve 3, .setKeys 1, .load 1 1, .setDT 1, .setST 1, .reset],
      (after (step { start with dispChanged := true, host := [c] })).dispChanged = false := by decide

/-- V-H8, V-H10, V-H11 and the outputs of a fault (R281). -/
theorem test_host_misc :
    (start.commandLoad 0xFFF#12 0x5A#8).byteAt 0xFFF = 0x5A#8 ∧
    (∀ p : BitVec 4, 9 ≤ p.toNat → Ports.command ⟨p, 1#8, 2#4, 3#16, 4#12, 5#8, 6#8, 7#7, 8#6⟩ = .idle) ∧
    (after (step { start with run := .halted .memOutOfRange })).run = .halted .memOutOfRange ∧
    ({ start with run := .halted .memOutOfRange }.outputs 0#7 0#6).faultCode = 4#3 := by decide

/-- The state of V-H12 before RESET. -/
def faulted : State :=
  { regs [(0, 0x55)] start with
    run := .halted .stackUnderflow, mem := [(0x300, 0x77#8)], RPL := #v[0x66, 0, 0, 0, 0, 0, 0, 0]
    hires := true, disp := lit [(1, 1)], stack := [1#16, 2#16, 3#16], DT := 9#8 }

/-- V-H12. -/
theorem test_reset_command :
    faulted.commandReset =
      { start with mem := [(0x300, 0x77#8)], RPL := #v[0x66, 0, 0, 0, 0, 0, 0, 0] } := by decide

/-! ## Witnesses: for each statement with hypotheses, a state and operands that meet all of them -/

/-- A canonical RAM with its lowest and highest address listed. -/
def corners : Memory := [(0x000, 0x12#8), (0xFFF, 0x34#8)]

theorem corners_wf : corners.wf := by decide

theorem test_witness_DecodeUndoesEncode : (Instr.draw 0xF 0xF 0xF).WellFormed := by decide

theorem test_witness_IgnoredBitsDoNotMatter :
    decode 0x8106#16 ≠ .invalid ∧ 0x81F6#16 &&& (decode 0x8106#16).usedBits = 0x8106#16 &&& (decode 0x8106#16).usedBits :=
  by decide

/-- Both clauses, at the highest fetch address. -/
theorem test_witness_StepRunsDecodedInstruction :
    ({ start with pc := 0x0FFE#16 } : State).run = .running ∧ ({ start with pc := 0x0FFE#16 } : State).pc.toNat ≤ 0xFFE ∧
    ({ start with pc := 0x0FFE#16 } : State).host = [] ∧
    ({ start with pc := 0x0FFE#16, host := [.step 0xFF#8] } : State).host = .step 0xFF#8 :: [] := by decide

theorem test_witness_FetchPastRamFaults :
    ({ start with pc := 0x0FFF#16 } : State).run = .running ∧ 0xFFE < ({ start with pc := 0x0FFF#16 } : State).pc.toNat :=
  by decide

theorem test_witness_StepIgnoredUnlessRunning :
    ({ start with run := .awaitingKey 0xF#4 } : State).run ≠ .running ∧
    ({ start with run := .halted .modeViolation } : State).run ≠ .running := by decide

/-- A full stack at the highest pc a run reaches, and a step of it. -/
theorem test_witness_StepKeepsInvariant :
    ({ start with pc := 0x10FE#16, stack := [0x1000#16], stackDepth := 1, mem := corners } : State).Inv ∧
    ∃ t, step { start with pc := 0x10FE#16, stack := [0x1000#16], stackDepth := 1, mem := corners } = .next t :=
  ⟨⟨by decide, by decide, by decide, by decide, by simp⟩, _, rfl⟩

theorem test_witness_ResetHasInvariant : 1 ≤ 1 ∧ corners.wf := by decide

theorem test_witness_FaultChangesOnlyRun :
    start.run = .running ∧ ∃ t, exec .ret start = .next t ∧ t.run = .halted .stackUnderflow :=
  ⟨by decide, _, rfl, by decide⟩

/-- With a full stack, and with an empty one. -/
theorem test_witness_FaultsAreExactlyTheListedCauses :
    (Instr.call 0x300#12).WellFormed ∧ start.run = .running ∧ start.sp ≤ start.stackDepth ∧
    ({ start with stackDepth := 0 } : State).sp ≤ ({ start with stackDepth := 0 } : State).stackDepth := by decide

/-- A LOAD at the last address, a TICK, a SET_ST and a SET_KEYS, each in Halted: every clause of the conclusion. -/
theorem test_witness_HaltedLeftOnlyByReset :
    ∀ c : Command, c ∈ [.load 0xFFF#12 0x5A#8, .tick, .setDT 0#8, .setST 0xFF#8, .setKeys 0x8000#16] →
    let s : State := { start with run := .halted .stackUnderflow, DT := 1#8, host := [c] }
    s.run = .halted .stackUnderflow ∧ s.nextCommand ≠ .reset ∧ s.mem.wf ∧
      ∃ t, step s = .next t ∧ (t.mem ≠ s.mem ∨ t.DT ≠ s.DT ∨ t.ST ≠ s.ST ∨ t.keys ≠ s.keys) := by
  simp only [List.forall_mem_cons, List.not_mem_nil, false_imp_iff, implies_true, and_true]
  refine ⟨?_, ?_, ?_, ?_, ?_⟩ <;> exact ⟨by decide, by decide, by decide, _, rfl, by decide⟩

/-- The same commands in AwaitingKey. -/
theorem test_witness_KeyBlockLeftOnlyByResolveOrReset :
    ∀ c : Command, c ∈ [.load 0xFFF#12 0x5A#8, .tick, .setDT 0#8, .setST 0xFF#8, .setKeys 0x8000#16] →
    let s : State := { start with run := .awaitingKey 0x3#4, DT := 1#8, host := [c] }
    s.run = .awaitingKey 0x3#4 ∧ s.nextCommand ≠ .reset ∧ (∀ k, s.nextCommand ≠ .keyResolve k) ∧ s.mem.wf ∧
      ∃ t, step s = .next t ∧ (t.mem ≠ s.mem ∨ t.DT ≠ s.DT ∨ t.ST ≠ s.ST ∨ t.keys ≠ s.keys) := by
  simp only [List.forall_mem_cons, List.not_mem_nil, false_imp_iff, implies_true, and_true]
  refine ⟨?_, ?_, ?_, ?_, ?_⟩ <;> exact ⟨by decide, by decide, by decide, by decide, _, rfl, by decide⟩

/-- An instruction that executes and one that faults, at the highest fetch address. -/
theorem test_witness_PcAfterEveryInstruction :
    let s : State := { start with pc := 0x0FFE#16 }
    s.sp ≤ s.stackDepth ∧ s.pc.toNat ≤ 0xFFE ∧ (∃ t, exec (.call 0xFFF#12) s = .next t) ∧
      faultCause (.call 0xFFF#12) s = none ∧ (∃ t, exec .ret s = .next t) ∧
      faultCause .ret s = some .stackUnderflow :=
  ⟨by decide, by decide, ⟨_, rfl⟩, by decide, ⟨_, rfl⟩, by decide⟩

theorem test_witness_OnlyHighResolutionChangesMode :
    ∃ t, exec .highResolutionOn start = .next t ∧ t.hires ≠ start.hires := ⟨_, rfl, by decide⟩

theorem test_witness_OnlyPointerInstructionsChangeI :
    ∃ t, exec (.setPointer 0x234#12) start = .next t ∧ t.I ≠ start.I := ⟨_, rfl, by decide⟩

theorem test_witness_OnlyTheirInstructionsChangeStackAndRpl :
    (∃ t, exec (.call 0x234#12) start = .next t ∧ t.stack ≠ start.stack) ∧
    ∃ t, exec (.storeRegistersRPL 0x0#4) (regs [(0, 0x11)] start) = .next t ∧ t.RPL ≠ start.RPL :=
  ⟨⟨_, rfl, by decide⟩, _, rfl, by decide⟩

theorem test_witness_OnlyStoresChangeRam :
    start.mem.wf ∧
    (∃ t, exec (.storeDecimal 0x1#4) (regs [(1, 0xFF)] start) = .next t ∧ t.byteAt 0 ≠ start.byteAt 0) ∧
    ∃ t, exec (.storeRegisters 0x1#4) (regs [(1, 0xFF)] start) = .next t ∧ t.byteAt 1 ≠ start.byteAt 1 :=
  ⟨by decide, ⟨_, rfl, by decide⟩, _, rfl, by decide⟩

theorem test_witness_OnlyDisplayInstructionsChangeGrid :
    ∃ t, exec .clearScreen { start with disp := lit [(1, 1)] } = .next t ∧ t.disp ≠ lit [(1, 1)] :=
  ⟨_, rfl, by decide⟩

theorem test_witness_FlagRegisterWriters :
    (∃ t, exec (.add 0x1#4 0x2#4) (regs [(1, 0xFF), (2, 0x01)] start) = .next t ∧
      t.reg 0xF#4 ≠ (regs [(1, 0xFF), (2, 0x01)] start).reg 0xF#4) ∧
    ∃ t, exec (.loadImm 0xF#4 0xAB#8) start = .next t ∧ t.reg 0xF#4 ≠ start.reg 0xF#4 :=
  ⟨⟨_, rfl, by decide⟩, _, rfl, by decide⟩

theorem test_witness_TimersKeysAndInputsFrame :
    (∃ t, exec (.setTimer 0x1#4) (regs [(1, 0xFF)] start) = .next t ∧ t.DT ≠ start.DT) ∧
    ∃ t, exec (.setSound 0x1#4) (regs [(1, 0xFF)] start) = .next t ∧ t.ST ≠ start.ST :=
  ⟨⟨_, rfl, by decide⟩, _, rfl, by decide⟩

/-- The last free entry, and the full stack. -/
theorem test_witness_CallPushesReturnAddress :
    ({ start with stack := List.replicate 15 0#16 } : State).sp < start.stackDepth ∧
    ({ start with stack := List.replicate 16 0#16 } : State).sp = start.stackDepth := by decide

theorem test_witness_ReturnPopsIntoPc :
    ({ start with stack := [0x1000#16] } : State).stack = 0x1000#16 :: [] ∧ start.sp = 0 := by decide

theorem test_witness_ReturnUndoesCall :
    ({ start with stack := List.replicate 15 0#16 } : State).sp < start.stackDepth := by decide

/-- `x` is not the flag register, and `r` neither. -/
theorem test_witness_AdditionsWriteSumAndCarry :
    (0xE#4 : RegIx) ≠ 0xF#4 ∧ (0x0#4 : RegIx) ≠ 0xE#4 ∧ (0x0#4 : RegIx) ≠ 0xF#4 := by decide

theorem test_witness_SubtractionsWriteNotBorrow :
    (0xE#4 : RegIx) ≠ 0xF#4 ∧ (0x0#4 : RegIx) ≠ 0xE#4 ∧ (0x0#4 : RegIx) ≠ 0xF#4 := by decide

theorem test_witness_ShiftsWriteTheBitShiftedOut :
    (0xE#4 : RegIx) ≠ 0xF#4 ∧ (0x0#4 : RegIx) ≠ 0xE#4 ∧ (0x0#4 : RegIx) ≠ 0xF#4 := by decide

/-- The last and the first `I` on either side of the bound. -/
theorem test_witness_StoreDecimalWritesThreeDigits :
    corners.wf ∧ ({ start with I := 0x0FFD#16, mem := corners } : State).ea 2 ≤ 0xFFF ∧
    0xFFF < ({ start with I := 0x0FFE#16, mem := corners } : State).ea 2 := by decide

theorem test_witness_StoreRegistersWritesRange :
    corners.wf ∧ ({ start with I := 0x0FF0#16, mem := corners } : State).ea (0xF#4 : RegIx).toNat ≤ 0xFFF ∧
    0xFFF < ({ start with I := 0x0FF1#16, mem := corners } : State).ea (0xF#4 : RegIx).toNat := by decide

theorem test_witness_LoadRegistersReadsRange :
    ({ start with I := 0x0FF0#16 } : State).ea (0xF#4 : RegIx).toNat ≤ 0xFFF ∧
    0xFFF < ({ start with I := 0xFFFF#16 } : State).ea (0x0#4 : RegIx).toNat := by decide

theorem test_witness_LoadAfterStoreRestoresRegisters :
    corners.wf ∧ ({ start with I := 0x0FF0#16, mem := corners } : State).ea (0xF#4 : RegIx).toNat ≤ 0xFFF := by decide

theorem test_witness_RplTransfersCopyRange : (0x7#4 : RegIx).toNat ≤ 7 ∧ 7 < (0x8#4 : RegIx).toNat := by decide

theorem test_witness_KeySkipsTestTheNamedKey :
    ((regs [(1, 0x0F)] start).reg 0x1#4).toNat ≤ 15 ∧ 15 < ((regs [(1, 0x10)] start).reg 0x1#4).toNat := by decide

/-- Both sides of the RAM bound; a covered lit cell, and no covered lit cell. -/
theorem test_witness_DrawFlipsCoveredCells :
    (0x1#4 : Nibble) ≠ 0x0#4 ∧ ({ start with I := 0x0FFF#16 } : State).ea ((0x1#4 : Nibble).toNat - 1) ≤ 0xFFF ∧
    0xFFF < ({ start with I := 0x1000#16 } : State).ea ((0x1#4 : Nibble).toNat - 1) ∧
    ((bytes 0x300 [0x80] { high with I := 0x0300#16 }).drawCovers 0 1 1 0 0 ∧
      (lit [(0, 0)]).cell 0 0 = true) ∧
    ¬ ∃ gx gy, gx < 128 ∧ gy < 64 ∧ high.drawCovers 0 1 1 gx gy ∧ high.disp.cell gx gy = true := by
  refine ⟨by decide, by decide, by decide, ⟨⟨0, 0, by decide⟩, by decide⟩, ?_⟩
  rintro ⟨gx, gy, _, hy, _, h⟩
  simp [high, start, State.reset, State.afterReset, Grid.cell, hy] at h

theorem test_witness_DrawLargeFlipsCoveredCells :
    high.hires = true ∧ ({ high with I := 0x0FE0#16 } : State).ea 31 ≤ 0xFFF ∧ start.hires = false ∧
    0xFFF < ({ high with I := 0x0FE1#16 } : State).ea 31 ∧
    (bytes 0x300 [0, 0x01] { high with I := 0x0300#16 }).drawLargeCovers 0 1 15 0 :=
  ⟨by decide, by decide, by decide, by decide, 0, 15, by decide⟩

/-- Both forms, each at the last `I` its bytes allow. -/
theorem test_witness_DrawTwiceRestoresGrid :
    (Instr.draw 0xE 0x0 0xF = .draw 0xE 0x0 0xF ∧ (0xF#4 : Nibble) ≠ 0x0#4 ∧
      ({ start with I := 0x0FF1#16 } : State).ea ((0xF#4 : Nibble).toNat - 1) ≤ 0xFFF) ∧
    (Instr.drawLarge 0xE 0x0 = .drawLarge 0xE 0x0 ∧ high.hires = true ∧
      ({ high with I := 0x0FE0#16 } : State).ea 31 ≤ 0xFFF) ∧
    (0xE#4 : RegIx) ≠ 0xF#4 ∧ (0x0#4 : RegIx) ≠ 0xF#4 ∧ high.disp = Grid.blank := by decide

theorem test_witness_ScrollsMoveEveryCell : high.hires = true ∧ start.hires = false := by decide

theorem test_witness_ScrollRightThenLeftLosesFourColumns : high.hires = true := by decide

/-- Every command code, a list with a command at its head, and an empty list. -/
theorem test_witness_CommandsDecodeAndRunInOrder :
    (∀ c : BitVec 4, (Ports.mk c 0 0 0 0 0 0 0 0).cmd = c) ∧
    ({ start with host := [.tick, .reset] } : State).host = .tick :: [.reset] ∧
    ({ start with run := .halted .modeViolation } : State).host = [] := by decide

theorem test_witness_KeyResolveWritesAwaitedRegister :
    ({ start with run := .awaitingKey 0xF#4 } : State).run = .awaitingKey 0xF#4 ∧
    (∀ r, start.run ≠ .awaitingKey r) ∧
    ∀ r, ({ start with run := .halted .stackUnderflow } : State).run ≠ .awaitingKey r := by decide

theorem test_witness_HostWritesTouchOneThing : ({ start with mem := corners } : State).mem.wf := by decide

/-- A STEP that faults, one that is ignored, an IDLE and a TICK, each after a `disp_changed` of 1. -/
theorem test_witness_DispChangedMeansACellDiffers :
    let shown : State := { start with dispChanged := true, pc := 0x0FFF#16, host := [.step 0xFF#8] }
    (∃ t, step shown = .next t ∧ shown.nextCommand = .step 0xFF#8 ∧ ∃ c, t.run = .halted c) ∧
    (∃ t, step { shown with run := .awaitingKey 0x3#4 } = .next t ∧
      ({ shown with run := .awaitingKey 0x3#4 } : State).run ≠ .running) ∧
    (∃ t, step { shown with host := [.idle] } = .next t ∧ ({ shown with host := [.idle] } : State).nextCommand = .idle) ∧
    ∃ t, step { shown with host := [.tick] } = .next t ∧ (∀ r, Command.tick ≠ .step r) ∧ Command.tick ≠ .idle :=
  ⟨⟨_, rfl, rfl, .fetchOutOfRange, rfl⟩, ⟨_, rfl, by decide⟩, ⟨_, rfl, rfl⟩, _, rfl, by decide, by decide⟩

/-- A command that does not end the wait of a key-block. -/
theorem test_witness_KeyBlockSuspendsUntilResolve :
    (∃ v, Command.setKeys 0x0008#16 = .setKeys v) ∧ (0x0#4 : RegIx) ≠ 0x3#4 := ⟨⟨_, rfl⟩, by decide⟩

/-- A run state for each clause. -/
theorem test_witness_OutputsShowTheState :
    ({ start with run := .awaitingKey 0xF#4 } : State).run = .awaitingKey 0xF#4 ∧ (∀ c, start.run ≠ .halted c) ∧
    ∀ c, ({ start with run := .halted c } : State).run = .halted c :=
  ⟨rfl, (fun _ h => by cases h), fun _ => rfl⟩

theorem test_witness_ReadAfterWrite :
    ({ start with mem := corners } : State).mem.wf ∧ 0xFFF ≤ 0xFFF ∧ 0xFFF < 0x1000 := by decide

theorem test_witness_CanonicalRamIsItsBytes :
    corners.wf ∧ (Memory.write (Memory.write [] 0xFFF 0x34#8) 0x000 0x12#8).wf ∧
    ∀ a ≤ 0xFFF, Memory.read corners a = Memory.read (Memory.write (Memory.write [] 0xFFF 0x34#8) 0x000 0x12#8) a :=
  ⟨by decide, by decide, fun _ _ => rfl⟩

end Sys2Proof.Tests
end

/-! PROOFS. Family 10_state.md: what every instruction, and every step, keeps (R23 to R43). The shared layer says once
what an instruction that answers a next state has done: it has executed within its frame, or taken its fault. -/

namespace Sys2Proof.Machine

section
variable {i : Instr} {s t u : State} {c : FaultCode}

/-! ## Where the pc goes (R25, R26) -/

theorem zextAddr_toNat (a : Addr12) : (zextAddr a).toNat = a.toNat := by
  simp only [zextAddr, BitVec.toNat_setWidth]; omega

theorem State.npc_toNat (hpc : s.pc.toNat ≤ 0xFFE) : s.npc.toNat = s.pc.toNat + 2 := by
  simp only [State.npc, BitVec.toNat_add, BitVec.toNat_ofNat]; omega

theorem State.skipIf_pc_toNat (hpc : s.pc.toNat ≤ 0xFFE) (b : Bool) :
    (s.skipIf b).pc.toNat = if b = true then s.pc.toNat + 4 else s.pc.toNat + 2 := by
  have hnpc := State.npc_toNat hpc
  cases b
  · exact hnpc
  · simp only [State.skipIf_pc, if_true, BitVec.toNat_add, BitVec.toNat_ofNat]; omega

theorem jumpPlus_toNat (a : Addr12) (v : Byte) : (zextAddr a + zextByte v).toNat = a.toNat + v.toNat := by
  rw [BitVec.toNat_add, zextAddr_toNat, zextByte, BitVec.toNat_setWidth]; omega

/-! ## What an instruction does -/

/-- The state before an instruction with those fields taken from the state `t` after it that the instruction may write
(R23 to R41). -/
def State.frame (s : State) (i : Instr) (t : State) : State :=
  match i with
  | .ret => { s with pc := t.pc, stack := s.stack.tail }
  | .call _ => { s with pc := t.pc, stack := s.npc :: s.stack }
  | .highResolutionOff => { s with pc := t.pc, hires := false }
  | .highResolutionOn => { s with pc := t.pc, hires := true }
  | .clearScreen | .scrollRight | .scrollLeft | .scrollDown _ => { s with pc := t.pc, disp := t.disp }
  | .draw _ _ _ | .drawLarge _ _ => { s with pc := t.pc, disp := t.disp, V := t.V }
  | .setPointer _ | .addPointer _ | .getDigit _ => { s with pc := t.pc, I := t.I }
  | .storeDecimal _ | .storeRegisters _ => { s with pc := t.pc, mem := t.mem }
  | .storeRegistersRPL _ => { s with pc := t.pc, RPL := t.RPL }
  | .setTimer _ => { s with pc := t.pc, DT := t.DT }
  | .setSound _ => { s with pc := t.pc, ST := t.ST }
  | .keyBlock _ => { s with pc := t.pc, run := t.run }
  | .jump _ | .jumpPlus _ | .skipIfEqualImm _ _ | .skipIfUnequalImm _ _ | .skipIfEqualReg _ _ | .skipIfUnequalReg _ _
  | .skipIfKey _ | .skipIfNotKey _ | .invalid => { s with pc := t.pc }
  | .loadImm _ _ | .addInPlace _ _ | .loadReg _ _ | .orReg _ _ | .andReg _ _ | .xorReg _ _ | .add _ _ | .sub _ _
  | .shiftRight _ | .subReverse _ _ | .shiftLeft _ | .random _ _ | .getTimer _ | .loadRegisters _
  | .loadRegistersRPL _ => { s with pc := t.pc, V := t.V }

/-- The two ways an instruction answers a next state `t`. A stack longer than STACK_DEPTH is full too (log 3), so
`faultCause` knows a full stack only within the bound of R43. -/
inductive ExecCases (i : Instr) (s t : State) : Prop
  /-- It executes: it writes within its frame, leaves the pc of R26, and keeps RAM canonical. -/
  | executes (hcause : faultCause i s = none) (hframe : t = s.frame i t)
      (hpc : s.pc.toNat ≤ 0xFFE → t.pc.toNat = pcAfter i s) (hwf : s.mem.wf → t.mem.wf)
  /-- It takes its fault (R296). -/
  | faults (c : FaultCode) (hcause : s.sp ≤ s.stackDepth → faultCause i s = some c)
      (ht : t = { s with run := .halted c })

/-- A meaning that is one choice between its effect, when `p` holds, and its fault, when `q` does. -/
theorem ExecCases.of_ite {p q : Prop} [Decidable p] [Decidable q]
    (h : (if p then .next u else raise c s) = Host.Outcome.next t)
    (hcause : faultCause i s = if q then some c else none)
    (hok : p → ¬ q) (hbad : ¬ p → s.sp ≤ s.stackDepth → q) (hframe : u = s.frame i u)
    (hpc : s.pc.toNat ≤ 0xFFE → u.pc.toNat = pcAfter i s) (hwf : p → s.mem.wf → u.mem.wf) : ExecCases i s t := by
  split at h <;> cases h
  · exact .executes (hcause.trans (if_neg (hok ‹_›))) hframe hpc (hwf ‹_›)
  · exact .faults c (fun hsp => hcause.trans (if_pos (hbad ‹_› hsp))) rfl

/-- The range and index checks: a number is at most a bound. -/
theorem ExecCases.of_le {a b : Nat} (h : (if a ≤ b then .next u else raise c s) = Host.Outcome.next t)
    (hcause : faultCause i s = if a > b then some c else none) (hframe : u = s.frame i u)
    (hpc : s.pc.toNat ≤ 0xFFE → u.pc.toNat = pcAfter i s) (hwf : a ≤ b → s.mem.wf → u.mem.wf) : ExecCases i s t :=
  .of_ite h hcause Nat.not_lt.2 (fun hp _ => Nat.not_le.1 hp) hframe hpc hwf

/-- A scroll: the mode check, then a new grid. -/
theorem ExecCases.of_scroll {d : Grid}
    (h : (if s.hires = true then .next { s with disp := d, pc := s.npc } else raise c s) = Host.Outcome.next t)
    (hcause : faultCause i s = if s.hires = false then some c else none)
    (hframe : ∀ d, s.frame i { s with disp := d, pc := s.npc } = { s with disp := d, pc := s.npc })
    (hpc : pcAfter i s = s.pc.toNat + 2) : ExecCases i s t :=
  .of_ite h hcause (by simp) (fun hp _ => by simpa using hp) (hframe d).symm
    (fun h => hpc ▸ State.npc_toNat h) fun _ => id

/-- A compare skip: no check, and one of two pcs. -/
theorem ExecCases.of_skipIf {b : Bool} (h : Host.Outcome.next (s.skipIf b) = (Host.Outcome.next t : Result))
    (hcause : faultCause i s = none) (hframe : s.skipIf b = s.frame i (s.skipIf b))
    (hpc : pcAfter i s = if b = true then s.pc.toNat + 4 else s.pc.toNat + 2) : ExecCases i s t := by
  cases h
  exact .executes hcause hframe (fun h => (State.skipIf_pc_toNat h b).trans hpc.symm) id

theorem execReturn_cases (h : execReturn s = .next t) : ExecCases .ret s t := by
  rw [execReturn_eq] at h
  split at h <;> rename_i hs <;> cases h
  · exact .faults _ (fun _ => if_pos (by simp [State.sp, hs])) rfl
  · exact .executes (if_neg (by simp [State.sp, hs])) (by simp [State.frame, hs]) (by simp [pcAfter, hs]) id

theorem execDrawLarge_cases {x y : RegIx} (h : execDrawLarge x y s = .next t) : ExecCases (.drawLarge x y) s t := by
  rw [execDrawLarge_eq] at h
  by_cases hm : s.hires = true
  · rw [if_pos hm] at h
    exact .of_le h (if_neg (by simp [hm])) rfl State.npc_toNat fun _ => id
  · rw [if_neg hm] at h; cases h
    exact .faults _ (fun _ => if_pos (by simpa using hm)) rfl

theorem execDraw_cases {x y : RegIx} {n : Nibble} (h : execDraw x y n s = .next t) :
    ExecCases (.draw x y n) s t := by
  by_cases hn : n = 0x0#4
  · rw [execDraw, if_pos hn] at h; cases h
  · have hpos : n.toNat ≠ 0 := fun h0 => hn (BitVec.eq_of_toNat_eq h0)
    exact .of_ite ((execDraw_eq s x y hn).symm.trans h) rfl (fun hp => by unfold State.ea at hp; omega)
      (fun hp _ => by unfold State.ea at hp; omega) rfl State.npc_toNat fun _ => id

/-- Every instruction that answers a next state has executed or taken its fault (R126, R291, R296). -/
theorem exec_cases (h : exec i s = .next t) : ExecCases i s t := by
  cases i with
  | ret => exact execReturn_cases h
  | call a =>
    exact .of_ite ((execCall_eq s a).symm.trans h) rfl Nat.ne_of_lt (fun hp hsp => Nat.le_antisymm hsp (Nat.not_lt.1 hp))
      rfl (fun _ => zextAddr_toNat a) fun _ => id
  | storeDecimal x =>
    obtain ⟨m, heq, hw⟩ := execStoreDecimal_eq s x
    exact .of_le (heq.symm.trans h) rfl rfl State.npc_toNat fun hp hs => (hw hp hs).1
  | storeRegisters x =>
    obtain ⟨m, heq, hw⟩ := execStoreRegisters_eq s x
    exact .of_le (heq.symm.trans h) rfl rfl State.npc_toNat fun hp hs => (hw hp hs).1
  | loadRegisters x => exact .of_le ((execLoadRegisters_eq s x).symm.trans h) rfl rfl State.npc_toNat fun _ => id
  | storeRegistersRPL x => exact .of_le ((execStoreRegistersRPL_eq s x).symm.trans h) rfl rfl State.npc_toNat fun _ => id
  | loadRegistersRPL x => exact .of_le ((execLoadRegistersRPL_eq s x).symm.trans h) rfl rfl State.npc_toNat fun _ => id
  | draw x y n => exact execDraw_cases h
  | drawLarge x y => exact execDrawLarge_cases h
  | scrollRight => exact .of_scroll ((execScrollRight_eq s).symm.trans h) rfl (fun _ => rfl) rfl
  | scrollLeft => exact .of_scroll ((execScrollLeft_eq s).symm.trans h) rfl (fun _ => rfl) rfl
  | scrollDown n => exact .of_scroll ((execScrollDown_eq s n).symm.trans h) rfl (fun _ => rfl) rfl
  | skipIfKey x =>
    exact .of_le ((execSkipIfKey_eq s x).symm.trans h) rfl rfl (fun hpc => State.skipIf_pc_toNat hpc _) fun _ => id
  | skipIfNotKey x =>
    exact .of_le ((execSkipIfNotKey_eq s x).symm.trans h) rfl rfl
      (fun hpc => (State.skipIf_pc_toNat hpc _).trans (by simp [pcAfter, State.keyPressed])) fun _ => id
  | skipIfEqualImm | skipIfUnequalImm | skipIfEqualReg | skipIfUnequalReg =>
    exact .of_skipIf h rfl rfl (by simp [pcAfter])
  | jump a => cases h; exact .executes rfl rfl (fun _ => zextAddr_toNat a) id
  | jumpPlus a => cases h; exact .executes rfl rfl (fun _ => jumpPlus_toNat a _) id
  | _ => cases h; exact .executes rfl rfl State.npc_toNat id

/-! ## The invariant (R42, R43) -/

theorem skip_le {p : Prop} [Decidable p] {n : Nat} (hn : n ≤ 0xFFE) : (if p then n + 4 else n + 2) ≤ 0x10FE := by
  split <;> omega

/-- The highest target is that of a JumpPlus, 0xFFF + 0xFF. -/
theorem pcAfter_le (hpc : s.pc.toNat ≤ 0xFFE) (hstack : ∀ v ∈ s.stack, v.toNat ≤ 0x1000) :
    pcAfter i s ≤ 0x10FE := by
  cases i with
  | ret =>
    show (s.stack.headD 0#16).toNat ≤ 0x10FE
    cases hs : s.stack with
    | nil => simp
    | cons v rest => exact Nat.le_trans (hstack v (by simp [hs])) (by omega)
  | jump a => show a.toNat ≤ 0x10FE; omega
  | call a => show a.toNat ≤ 0x10FE; omega
  | jumpPlus a => show a.toNat + (s.reg (a.extractLsb' 8 4)).toNat ≤ 0x10FE; omega
  | skipIfEqualImm | skipIfUnequalImm | skipIfEqualReg | skipIfUnequalReg | skipIfKey | skipIfNotKey =>
    exact skip_le hpc
  | _ => show s.pc.toNat + 2 ≤ 0x10FE; omega

/-- Only Call and Return move the stack: Call pushes the address of the next opcode within STACK_DEPTH, Return pops. -/
theorem ExecCases.stack_inv (h : ExecCases i s t) (hpc : s.pc.toNat ≤ 0xFFE) (hsp : s.sp ≤ s.stackDepth)
    (hstack : ∀ v ∈ s.stack, v.toNat ≤ 0x1000) : t.sp ≤ s.stackDepth ∧ ∀ v ∈ t.stack, v.toNat ≤ 0x1000 := by
  unfold State.sp at *
  cases h with
  | executes hcause hframe =>
    rw [congrArg State.stack hframe]
    cases i with
    | ret =>
      show s.stack.tail.length ≤ _ ∧ ∀ v ∈ s.stack.tail, _
      exact ⟨by rw [List.length_tail]; omega, fun v hv => hstack v (List.mem_of_mem_tail hv)⟩
    | call a =>
      show (s.npc :: s.stack).length ≤ _ ∧ ∀ v ∈ s.npc :: s.stack, _
      have hroom : s.sp ≠ s.stackDepth := fun hfull => by cases hcause.symm.trans (if_pos hfull)
      have hnpc := State.npc_toNat hpc
      exact ⟨by rw [List.length_cons]; unfold State.sp at hroom; omega,
        List.forall_mem_cons.2 ⟨by omega, hstack⟩⟩
    | _ => exact ⟨hsp, hstack⟩
  | faults c hcause ht => subst ht; exact ⟨hsp, hstack⟩

theorem ExecCases.stackDepth_eq (h : ExecCases i s t) : t.stackDepth = s.stackDepth := by
  cases h with
  | executes hcause hframe => rw [congrArg State.stackDepth hframe]; cases i <;> rfl
  | faults c hcause ht => rw [ht]

/-- An instruction fetched from RAM keeps the invariant. -/
theorem exec_inv (hs : s.Inv) (hpc : s.pc.toNat ≤ 0xFFE) (h : exec i s = .next t) : t.Inv := by
  obtain ⟨hmem, hdepth, hsp, -, hstack⟩ := hs
  obtain ⟨hsp', hstack'⟩ := (exec_cases h).stack_inv hpc hsp hstack
  have hdepth' := (exec_cases h).stackDepth_eq
  cases exec_cases h with
  | executes hcause hframe hpc' hwf =>
    exact ⟨hwf hmem, hdepth' ▸ hdepth, hdepth' ▸ hsp', hpc' hpc ▸ pcAfter_le hpc hstack, hstack'⟩
  | faults c hcause ht => subst ht; exact ⟨hmem, hdepth, hsp, by show s.pc.toNat ≤ _; omega, hstack⟩

theorem stepCore_inv (hs : s.Inv) (h : stepCore s = .next t) : t.Inv := by
  unfold stepCore at h
  split at h
  · unfold cycle at h
    by_cases hpc : s.pc.toNat ≤ Config.fetchTop
    · rw [State.fetch_ok hpc] at h; exact exec_inv hs hpc h
    · rw [State.fetch_error (Nat.not_le.1 hpc)] at h; cases h; exact hs
  · cases h; exact hs
  · cases h; exact hs

/-- Every reset state (R42) meets the invariant. -/
theorem State.afterReset_inv {depth : Nat} {m : Memory} (rpl : Vector Byte 8) (hdepth : 1 ≤ depth) (hm : m.wf) :
    (State.afterReset depth m rpl).Inv :=
  ⟨hm, hdepth, Nat.zero_le _, (by decide : Config.entryPoint.toNat ≤ 0x10FE), fun _ hv => by cases hv⟩

theorem State.commandKeyResolve_inv (hs : s.Inv) (key : Nibble) : (s.commandKeyResolve key).Inv := by
  unfold State.commandKeyResolve
  split <;> exact hs

theorem transact_inv {cmd : Command} (hs : s.Inv) (h : transact cmd s = .next t) : t.Inv := by
  obtain ⟨hmem, hdepth, hrest⟩ := hs
  cases cmd with
  | step rand => exact stepCore_inv (s := { s with rand := rand }) ⟨hmem, hdepth, hrest⟩ h
  | keyResolve key => cases h; exact State.commandKeyResolve_inv ⟨hmem, hdepth, hrest⟩ key
  | load addr data =>
    cases h
    exact ⟨Memory.wf_write hmem (by rw [ramTop_eq]; omega) data, hdepth, hrest⟩
  | reset => cases h; exact State.afterReset_inv s.RPL hdepth hmem
  | _ => cases h; exact ⟨hmem, hdepth, hrest⟩

theorem State.dequeue_inv (hs : s.Inv) : s.dequeue.Inv := by
  rw [State.dequeue_eq]; exact hs

end

/-- Settles O11: taking a command and setting the output touch no field of the invariant, and the command keeps it. -/
theorem stepKeepsInvariant : Obligations.StepKeepsInvariant := by
  intro s t hs h
  obtain ⟨u, hu, rfl⟩ := runNext_next.1 h
  have hu' : u.Inv := transact_inv (State.dequeue_inv hs) hu
  exact hu'

/-- Settles O12: State.reset is a reset state too. -/
theorem resetHasInvariant : Obligations.ResetHasInvariant :=
  ⟨State.afterReset_inv _ (by decide) (by decide), fun _ _ rpl hdepth hm => State.afterReset_inv rpl hdepth hm⟩

/-- Settles O17: an instruction that executes leaves the pc of R26, and one that faults changes `run` alone. -/
theorem pcAfterEveryInstruction : Obligations.PcAfterEveryInstruction := by
  intro i s t hsp hpc h
  cases exec_cases h with
  | executes hnone _ hpc' => exact ⟨fun _ => hpc' hpc, fun c hc => absurd (hnone.symm.trans hc) nofun⟩
  | faults c hsome ht =>
    subst ht
    exact ⟨fun hnone => absurd (hnone.symm.trans (hsome hsp)) nofun, fun _ _ => rfl⟩

/-! ## Which instructions change a field (R24 to R41)

In each proof the named cases are the writers of the field, and `_` stands for the instructions whose frame keeps it. -/

/-- Settles O18: only the two mode instructions have the mode in their frame, at the value they set. -/
theorem onlyHighResolutionChangesMode : Obligations.OnlyHighResolutionChangesMode := by
  intro i s t h hne
  cases exec_cases h with
  | executes _ hframe =>
    have hhires := congrArg State.hires hframe
    cases i with
    | highResolutionOff => exact .inl ⟨rfl, hhires⟩
    | highResolutionOn => exact .inr ⟨rfl, hhires⟩
    | _ => exact absurd hhires hne
  | faults _ _ ht => subst ht; exact absurd rfl hne

/-- Settles O19: only the three pointer instructions have `I` in their frame. -/
theorem onlyPointerInstructionsChangeI : Obligations.OnlyPointerInstructionsChangeI := by
  intro i s t h hne
  cases exec_cases h with
  | executes _ hframe =>
    cases i with
    | setPointer a => exact .inl ⟨a, rfl⟩
    | addPointer x => exact .inr (.inl ⟨x, rfl⟩)
    | getDigit x => exact .inr (.inr ⟨x, rfl⟩)
    | _ => exact absurd (congrArg State.I hframe) hne
  | faults _ _ ht => subst ht; exact absurd rfl hne

/-- Settles O20: each of the two fields stands in the frame of its own instructions alone. -/
theorem onlyTheirInstructionsChangeStackAndRpl : Obligations.OnlyTheirInstructionsChangeStackAndRpl := by
  intro i s t h
  cases exec_cases h with
  | executes _ hframe =>
    have hstack := congrArg State.stack hframe
    have hRPL := congrArg State.RPL hframe
    cases i with
    | ret => exact ⟨fun _ => .inl rfl, absurd hRPL⟩
    | call a => exact ⟨fun _ => .inr ⟨a, rfl⟩, absurd hRPL⟩
    | storeRegistersRPL x => exact ⟨absurd hstack, fun _ => ⟨x, rfl⟩⟩
    | _ => exact ⟨absurd hstack, absurd hRPL⟩
  | faults _ _ ht => subst ht; exact ⟨absurd rfl, absurd rfl⟩

/-- Settles O22: only the display instructions have the grid in their frame. -/
theorem onlyDisplayInstructionsChangeGrid : Obligations.OnlyDisplayInstructionsChangeGrid := by
  intro i s t h hne
  cases exec_cases h with
  | executes _ hframe =>
    cases i with
    | clearScreen => exact .inl rfl
    | scrollRight => exact .inr (.inl rfl)
    | scrollLeft => exact .inr (.inr (.inl rfl))
    | scrollDown n => exact .inr (.inr (.inr (.inl ⟨n, rfl⟩)))
    | drawLarge x y => exact .inr (.inr (.inr (.inr (.inl ⟨x, y, rfl⟩))))
    | draw x y n => exact .inr (.inr (.inr (.inr (.inr ⟨x, y, n, rfl⟩))))
    | _ => exact absurd (congrArg State.disp hframe) hne
  | faults _ _ ht => subst ht; exact absurd rfl hne

/-- Settles O24: no frame holds the key vector, STACK_DEPTH or a field of the model's own. -/
theorem timersKeysAndInputsFrame : Obligations.TimersKeysAndInputsFrame := by
  intro i s t h
  cases exec_cases h with
  | executes _ hframe =>
    have hDT := congrArg State.DT hframe
    have hST := congrArg State.ST hframe
    rw [congrArg State.keys hframe, congrArg State.stackDepth hframe, congrArg State.host hframe,
      congrArg State.rand hframe, congrArg State.draws hframe, congrArg State.dispChanged hframe]
    cases i with
    | setTimer x => exact ⟨rfl, rfl, rfl, rfl, rfl, rfl, fun _ => ⟨x, rfl⟩, absurd hST⟩
    | setSound x => exact ⟨rfl, rfl, rfl, rfl, rfl, rfl, absurd hDT, fun _ => ⟨x, rfl⟩⟩
    | _ => exact ⟨rfl, rfl, rfl, rfl, rfl, rfl, absurd hDT, absurd hST⟩
  | faults _ _ ht => subst ht; exact ⟨rfl, rfl, rfl, rfl, rfl, rfl, absurd rfl, absurd rfl⟩

/-! ## The flag register (R23, R24) -/

theorem flagByte_cases (f : Bool) : flagByte f = 0x00#8 ∨ flagByte f = 0x01#8 := by
  cases f
  · exact .inl rfl
  · exact .inr rfl

/-- After a sprite V[15] is the collision flag (R235). -/
theorem State.drawSprite_flag (s : State) (m : Screen) (rows : List (List Bool)) (vx vy : Byte) :
    (s.drawSprite m rows vx vy).reg 0xF#4 = 0x00#8 ∨ (s.drawSprite m rows vx vy).reg 0xF#4 = 0x01#8 := by
  rw [State.drawSprite, State.reg_setReg, if_pos (show 0xF#4 = flagReg from rfl)]
  exact flagByte_cases _

/-- A range that ends before register 15 keeps V[15]. -/
theorem overlay_flag (V : Vector Byte 16) {bytes : List Byte} (hl : bytes.length ≤ 15) :
    (overlay V bytes)[15] = V[15] := by
  rw [getElem_overlay, List.getElem?_eq_none hl]; rfl

section
variable {s t : State}

/-- An ordinary destination: V[15] changes only as the register written. -/
theorem eq_flagReg_of_setReg {x : RegIx} {v : Byte}
    (h : Host.Outcome.next (s.setReg x v).advance = (Host.Outcome.next t : Result))
    (hne : t.reg 0xF#4 ≠ s.reg 0xF#4) : x = 0xF#4 := by
  cases h
  by_contra hx
  exact hne (by rw [State.reg_advance, State.reg_setReg, if_neg (Ne.symm hx)])

/-- After a flag write and a result write V[15] is a flag, unless it is the destination (R161, D14). -/
theorem flag_of_setFlagThenReg {f : Bool} {x : RegIx} {v : Byte}
    (h : Host.Outcome.next (s.setFlagThenReg f x v).advance = (Host.Outcome.next t : Result)) :
    x = 0xF#4 ∨ t.reg 0xF#4 = 0x00#8 ∨ t.reg 0xF#4 = 0x01#8 := by
  cases h
  by_cases hx : x = 0xF#4
  · exact .inl hx
  · rw [State.reg_advance, State.reg_setFlagThenReg, if_neg (Ne.symm hx), if_pos (show 0xF#4 = flagReg from rfl)]
    exact .inr (flagByte_cases f)

/-- A meaning that is one choice between its effect and its fault. -/
theorem eq_or_halted_of_ite {p : Prop} [Decidable p] {u : State} {c : FaultCode}
    (h : (if p then .next u else raise c s) = Host.Outcome.next t) : t = u ∨ t = { s with run := .halted c } := by
  split at h <;> cases h
  · exact .inl rfl
  · exact .inr rfl

theorem execDraw_flag {x y : RegIx} {n : Nibble} (h : execDraw x y n s = .next t)
    (hne : t.reg 0xF#4 ≠ s.reg 0xF#4) : t.reg 0xF#4 = 0x00#8 ∨ t.reg 0xF#4 = 0x01#8 := by
  by_cases hn : n = 0x0#4
  · rw [execDraw, if_pos hn] at h; cases h
  · obtain rfl | rfl := eq_or_halted_of_ite ((execDraw_eq s x y hn).symm.trans h)
    · rw [State.reg_advance]; exact State.drawSprite_flag ..
    · exact absurd rfl hne

theorem execDrawLarge_flag {x y : RegIx} (h : execDrawLarge x y s = .next t)
    (hne : t.reg 0xF#4 ≠ s.reg 0xF#4) : t.reg 0xF#4 = 0x00#8 ∨ t.reg 0xF#4 = 0x01#8 := by
  rw [execDrawLarge_eq] at h
  split at h
  · obtain rfl | rfl := eq_or_halted_of_ite h
    · rw [State.reg_advance]; exact State.drawSprite_flag ..
    · exact absurd rfl hne
  · cases h; exact absurd rfl hne

theorem execLoadRegisters_flag {x : RegIx} (h : execLoadRegisters x s = .next t)
    (hne : t.reg 0xF#4 ≠ s.reg 0xF#4) : x = 0xF#4 := by
  by_contra hx
  have hlt : x.toNat < 15 := by
    have : x.toNat ≠ 15 := fun h15 => hx (BitVec.eq_of_toNat_eq h15)
    omega
  obtain rfl | rfl := eq_or_halted_of_ite ((execLoadRegisters_eq s x).symm.trans h)
  · exact hne (overlay_flag s.V (by simpa using hlt))
  · exact hne rfl

theorem execLoadRegistersRPL_flag {x : RegIx} (h : execLoadRegistersRPL x s = .next t) :
    t.reg 0xF#4 = s.reg 0xF#4 := by
  obtain rfl | rfl := eq_or_halted_of_ite ((execLoadRegistersRPL_eq s x).symm.trans h)
  · exact overlay_flag s.V (by simp [State.rplTo])
  · rfl

end

/-- Settles O23: an instruction whose frame has no register keeps V[15]; the others write it as a flag, as their
destination, or within a loaded range. -/
theorem flagRegisterWriters : Obligations.FlagRegisterWriters := by
  intro i s t h hne
  cases i with
  | loadImm x k | addInPlace x k | random x k => cases eq_flagReg_of_setReg h hne; exact .inr (.inr (.inl ⟨k, by simp⟩))
  | loadReg x y | orReg x y | andReg x y | xorReg x y => cases eq_flagReg_of_setReg h hne; exact .inr (.inl ⟨y, by simp⟩)
  | getTimer x => cases eq_flagReg_of_setReg h hne; simp
  | add x y | sub x y | subReverse x y =>
    obtain rfl | hf := flag_of_setFlagThenReg h
    · exact .inr (.inl ⟨y, by simp⟩)
    · exact .inl ⟨hf, .inl ⟨x, y, by simp⟩⟩
  | shiftRight x | shiftLeft x =>
    obtain rfl | hf := flag_of_setFlagThenReg h
    · simp
    · exact .inl ⟨hf, .inr (.inl ⟨x, by simp⟩)⟩
  | drawLarge x y => exact .inl ⟨execDrawLarge_flag h hne, .inr (.inr (.inl ⟨x, y, rfl⟩))⟩
  | draw x y n => exact .inl ⟨execDraw_flag h hne, .inr (.inr (.inr ⟨x, y, n, rfl⟩))⟩
  | loadRegisters x => cases execLoadRegisters_flag h hne; simp
  | loadRegistersRPL x => exact absurd (execLoadRegistersRPL_flag h) hne
  | _ =>
    cases exec_cases h with
    | executes _ hframe => exact absurd (State.reg_congr (congrArg State.V hframe) _) hne
    | faults _ _ ht => subst ht; exact absurd rfl hne

/-! ## RAM as its bytes (R38) -/

/-- An address that reads as another byte than the unlisted one is listed with that byte. -/
theorem Memory.mem_of_read_ne {m : Memory} {a : Nat} (h : Memory.read m a ≠ Config.unlistedByte) :
    (a, Memory.read m a) ∈ m := by
  induction m with
  | nil => exact absurd rfl h
  | cons c m ih =>
    rw [Memory.read_cons] at h ⊢
    split at h <;> rename_i ha
    · rw [if_pos ha, ha]; exact List.mem_cons_self
    · rw [if_neg ha]; exact List.mem_cons_of_mem _ (ih h)

/-- A canonical memory lists only what another one that reads equally lists. -/
theorem Memory.subset_of_read_eq {m m' : Memory} (hm : m.wf)
    (h : ∀ a ≤ 0xFFF, Memory.read m a = Memory.read m' a) : m ⊆ m' := by
  intro c hc
  obtain ⟨htop, hne⟩ := hm.2 c hc
  have hread : Memory.read m' c.1 = c.2 := (h c.1 htop).symm.trans (Memory.read_of_mem hm hc)
  have := Memory.mem_of_read_ne (hread ▸ hne)
  rwa [hread] at this

/-- Settles O60: two canonical memories that read equally list the same cells, and strictly rising lists of the same
cells are equal. -/
theorem canonicalRamIsItsBytes : Obligations.CanonicalRamIsItsBytes := by
  intro m m' hm hm' h
  have hsub := Memory.subset_of_read_eq hm h
  have hsub' := Memory.subset_of_read_eq hm' fun a ha => (h a ha).symm
  have hnodup {n : Memory} (hn : n.wf) : n.Nodup := hn.1.imp fun hlt he => absurd (he ▸ hlt) (Nat.lt_irrefl _)
  have hperm : m.Perm m' := (List.perm_ext_iff_of_nodup (hnodup hm) (hnodup hm')).2 fun c => ⟨@hsub c, @hsub' c⟩
  exact hperm.eq_of_pairwise (fun a b _ _ hab hba => absurd hab (Nat.lt_asymm hba)) hm.1 hm'.1

end Sys2Proof.Machine

/-! PROOFS. Family 20_memory.md: a read after a write (R63, R64, R72), and which instructions change RAM (R66). -/

namespace Sys2Proof.Machine

/-! ## A read after a write (R63, R64, R72) -/

/-- Settles O59: in RAM a write is a write of the canonical memory, above it both accesses fault. -/
theorem readAfterWrite : Obligations.ReadAfterWrite := by
  intro s a v hs
  refine ⟨fun ha => ?_, fun ha => ⟨State.memRead_error ha, State.memWrite_error ha v⟩⟩
  exact ⟨State.memRead_ok ha, _, State.memWrite_ok ha v, rfl, Memory.wf_write hs ha v,
    fun b => Memory.read_write hs a b v⟩

/-! ## Which instructions change RAM (R66) -/

/-- Bytes laid over a memory from `lo` change a byte only where one of them lies. -/
theorem range_of_overlaid_ne {bytes : List Byte} {lo a : Nat} {old : Byte}
    (h : (if lo ≤ a then (bytes[a - lo]?).getD old else old) ≠ old) : lo ≤ a ∧ a < lo + bytes.length := by
  have hlo : lo ≤ a := by by_contra hlt; exact h (if_neg hlt)
  rw [if_pos hlo] at h
  have hlen : a - lo < bytes.length := by
    by_contra hge
    exact h (by rw [List.getElem?_eq_none (Nat.not_lt.1 hge)]; rfl)
  omega

/-- A store of bytes from `I` that answers a next state, by its effect or by its fault, changes only the bytes it
stores. -/
theorem range_of_store_ne {p : Prop} [Decidable p] {s t : State} {c : FaultCode} {m : Memory} {bytes : List Byte}
    {a : Nat} (h : (if p then .next { s with mem := m, pc := s.npc } else raise c s) = Host.Outcome.next t)
    (hread : p → ∀ b, Memory.read m b =
      if s.ea 0 ≤ b then (bytes[b - s.ea 0]?).getD (s.byteAt b) else s.byteAt b)
    (hne : t.byteAt a ≠ s.byteAt a) : s.ea 0 ≤ a ∧ a < s.ea 0 + bytes.length := by
  split at h <;> cases h
  · exact range_of_overlaid_ne fun hold => hne ((hread ‹p› a).trans hold)
  · exact absurd rfl hne

/-- Settles O21: only the two stores have RAM in their frame, and each changes only the bytes it stores. -/
theorem onlyStoresChangeRam : Obligations.OnlyStoresChangeRam := by
  intro i s t hs h a hne
  cases i with
  | storeDecimal x =>
    obtain ⟨m, heq, hw⟩ := execStoreDecimal_eq s x
    obtain ⟨hlo, hhi⟩ := range_of_store_ne (heq.symm.trans h) (fun hp => (hw hp hs).2) hne
    exact .inl ⟨x, rfl, hlo, hhi⟩
  | storeRegisters x =>
    obtain ⟨m, heq, hw⟩ := execStoreRegisters_eq s x
    obtain ⟨hlo, hhi⟩ := range_of_store_ne (heq.symm.trans h) (fun hp => (hw hp hs).2) hne
    rw [State.length_regsTo] at hhi
    exact .inr ⟨x, rfl, hlo, Nat.le_of_lt_succ hhi⟩
  | _ =>
    cases exec_cases h with
    | executes _ hframe => exact absurd (congrArg (Memory.read · a) (congrArg State.mem hframe)) hne
    | faults _ _ ht => subst ht; exact absurd rfl hne

end Sys2Proof.Machine

/-! PROOFS. Family 30_encoding.md: the decoder, the encoder and the opcode table agree (R96 to R105). Every fact about
an opcode is a fact about its fields: a packed opcode is its fields, and a mask of whole nibbles keeps some of them. -/

namespace Sys2Proof

variable {w : Opcode}

/-! ## An opcode is its fields (R91) -/

theorem packNibbles_eq_iff {a b c d : Nibble} :
    packNibbles a b c d = w ↔ a = w.group ∧ b = w.x ∧ c = w.y ∧ d = w.nibble := by
  constructor
  · rintro rfl; simp
  · rintro ⟨rfl, rfl, rfl, rfl⟩; exact packNibbles_fields w

theorem packByte_eq_iff {g : Nibble} {x : RegIx} {k : Byte} :
    packByte g x k = w ↔ g = w.group ∧ x = w.x ∧ k = w.byte := by
  constructor
  · rintro rfl; simp
  · rintro ⟨rfl, rfl, rfl⟩; exact packByte_fields w

theorem packAddr_eq_iff {g : Nibble} {a : Addr12} : packAddr g a = w ↔ g = w.group ∧ a = w.addr := by
  constructor
  · rintro rfl; simp
  · rintro ⟨rfl, rfl⟩; exact packAddr_fields w

theorem packNibbles_eq_packByte_iff {a b c d g : Nibble} {x : RegIx} {k : Byte} :
    packNibbles a b c d = packByte g x k ↔ a = g ∧ b = x ∧ c ++ d = k := by
  rw [eq_comm, packByte_eq_iff]; simp [eq_comm]

/-- The four bits that none of the first fifteen cases of `decode` takes. -/
theorem nibble_eq_0xF : ∀ n : Nibble, n ∉ [0x0#4, 0x1#4, 0x2#4, 0x3#4, 0x4#4, 0x5#4, 0x6#4, 0x7#4, 0x8#4, 0x9#4,
    0xA#4, 0xB#4, 0xC#4, 0xD#4, 0xE#4] → n = 0xF#4 := by decide

/-! ## Masks of whole nibbles keep fields (R96, R97) -/

theorem and_packNibbles (w : Opcode) (a b c d : Nibble) :
    w &&& packNibbles a b c d = packNibbles (w.group &&& a) (w.x &&& b) (w.y &&& c) (w.nibble &&& d) := by
  rw [← packNibbles_and, packNibbles_fields]

theorem nibble_and_0xF (n : Nibble) : n &&& 0xF#4 = n := BitVec.and_allOnes

@[simp] theorem and_0xFFFF (w : Opcode) : w &&& 0xFFFF#16 = w := BitVec.and_allOnes

@[simp] theorem and_0xF0FF (w : Opcode) : w &&& 0xF0FF#16 = packNibbles w.group 0x0#4 w.y w.nibble :=
  (and_packNibbles w 0xF#4 0x0#4 0xF#4 0xF#4).trans (by simp [nibble_and_0xF])

@[simp] theorem and_0xFFF0 (w : Opcode) : w &&& 0xFFF0#16 = packNibbles w.group w.x w.y 0x0#4 :=
  (and_packNibbles w 0xF#4 0xF#4 0xF#4 0x0#4).trans (by simp [nibble_and_0xF])

@[simp] theorem and_0xFF0F (w : Opcode) : w &&& 0xFF0F#16 = packNibbles w.group w.x 0x0#4 w.nibble :=
  (and_packNibbles w 0xF#4 0xF#4 0x0#4 0xF#4).trans (by simp [nibble_and_0xF])

@[simp] theorem and_0xF0F0 (w : Opcode) : w &&& 0xF0F0#16 = packNibbles w.group 0x0#4 w.y 0x0#4 :=
  (and_packNibbles w 0xF#4 0x0#4 0xF#4 0x0#4).trans (by simp [nibble_and_0xF])

@[simp] theorem and_0xF00F (w : Opcode) : w &&& 0xF00F#16 = packNibbles w.group 0x0#4 0x0#4 w.nibble :=
  (and_packNibbles w 0xF#4 0x0#4 0x0#4 0xF#4).trans (by simp [nibble_and_0xF])

@[simp] theorem and_0xF000 (w : Opcode) : w &&& 0xF000#16 = packNibbles w.group 0x0#4 0x0#4 0x0#4 :=
  (and_packNibbles w 0xF#4 0x0#4 0x0#4 0x0#4).trans (by simp [nibble_and_0xF])

/-! ## Decoding the canonical opcode (R96, R105) -/

/-- The byte of ScrollDown's canonical opcode is none of the six bytes group 0x0 tests first. -/
theorem decode_encode_scrollDown : ∀ n : Nibble, decode (encode (.scrollDown n)) = .scrollDown n := by decide

theorem decode_encode {i : Instr} (hi : i.WellFormed) : decode (encode i) = i := by
  cases i with
  | clearScreen | ret | scrollRight | scrollLeft | highResolutionOff | highResolutionOn | invalid => rfl
  | scrollDown n => exact decode_encode_scrollDown n
  | loadReg | orReg | andReg | xorReg | add | sub | shiftRight | subReverse | shiftLeft =>
    simp [encode, decode, decodeGroup8]
  | drawLarge => simp [encode, decode, decodeGroupD]
  | draw x y n =>
    have hn : n ≠ 0x0#4 := hi
    simp [encode, decode, decodeGroupD, hn]
  | skipIfKey | skipIfNotKey => simp [encode, decode, decodeGroupE]
  | getTimer | keyBlock | setTimer | setSound | addPointer | getDigit | storeDecimal | storeRegisters | loadRegisters
  | storeRegistersRPL | loadRegistersRPL => simp [encode, decode, decodeGroupF]
  | _ => simp [encode, decode]

/-- Settles O1: an opcode is its two bytes. -/
theorem decodeUndoesEncode : Obligations.DecodeUndoesEncode :=
  fun _ hi => ⟨decode_encode hi, fun _ => by simp [decodeBytes, decode_encode hi]⟩

/-! ## Encoding what was decoded (R97) -/

theorem encode_decodeGroup0 (hg : w.group = 0x0#4) :
    encode (decodeGroup0 w) = w &&& (decodeGroup0 w).usedBits := by
  unfold decodeGroup0
  split
  case h_7 =>
    split
    · simp [encode, Instr.usedBits, *]
    · simp [encode, Instr.usedBits]
  all_goals simp [encode, Instr.usedBits, packByte_eq_iff, ← byte_eq_append, *]

theorem encode_decodeGroup8 (hg : w.group = 0x8#4) :
    encode (decodeGroup8 w) = w &&& (decodeGroup8 w).usedBits := by
  unfold decodeGroup8
  split <;> simp [encode, Instr.usedBits, packNibbles_eq_iff, *]

theorem encode_decodeGroupD (hg : w.group = 0xD#4) :
    encode (decodeGroupD w) = w &&& (decodeGroupD w).usedBits := by
  unfold decodeGroupD
  split <;> simp [encode, Instr.usedBits, packNibbles_eq_iff, *]

theorem encode_decodeGroupE (hg : w.group = 0xE#4) :
    encode (decodeGroupE w) = w &&& (decodeGroupE w).usedBits := by
  unfold decodeGroupE
  split <;> simp [encode, Instr.usedBits, packByte_eq_iff, *]

theorem encode_decodeGroupF (hg : w.group = 0xF#4) :
    encode (decodeGroupF w) = w &&& (decodeGroupF w).usedBits := by
  unfold decodeGroupF
  split <;> simp [encode, Instr.usedBits, packByte_eq_iff, *]

theorem encode_decode (w : Opcode) : encode (decode w) = w &&& (decode w).usedBits := by
  unfold decode
  split
  case h_1 hg => exact encode_decodeGroup0 hg
  case h_9 hg => exact encode_decodeGroup8 hg
  case h_14 hg => exact encode_decodeGroupD hg
  case h_15 hg => exact encode_decodeGroupE hg
  case h_16 => exact encode_decodeGroupF (nibble_eq_0xF _ (by simp_all))
  all_goals simp [encode, Instr.usedBits, packByte_eq_iff, packAddr_eq_iff, *]

/-- Settles O2, group by group. -/
theorem encodeClearsIgnoredBits : Obligations.EncodeClearsIgnoredBits := encode_decode

/-- Draw with nibble 0 would have the canonical opcode of DrawLarge, which decodes to DrawLarge. -/
theorem decode_wellFormed (w : Opcode) : (decode w).WellFormed := by
  cases h : decode w with
  | draw x y n =>
    rintro rfl
    have hw : encode (.draw x y 0x0#4) = w := by simpa [h, Instr.usedBits] using encode_decode w
    have hlarge : decode w = .drawLarge x y := by
      rw [← hw]; exact decode_encode (i := .drawLarge x y) trivial
    cases h.symm.trans hlarge
  | _ => trivial

/-! ## Ignored bits (R97, D16) -/

theorem decode_and_0xF0FF (hg : w.group = 0x0#4) : decode (w &&& 0xF0FF#16) = decode w := by
  simp [decode, decodeGroup0, hg, byte_eq_append w]

theorem decode_and_0xFFF0 (hg : w.group = 0x5#4 ∨ w.group = 0x9#4) : decode (w &&& 0xFFF0#16) = decode w := by
  obtain hg | hg := hg <;> simp [decode, hg]

theorem decode_and_0xFF0F (hg : w.group = 0x8#4) (hn : w.nibble = 0x6#4 ∨ w.nibble = 0xE#4) :
    decode (w &&& 0xFF0F#16) = decode w := by
  obtain hn | hn := hn <;> simp [decode, decodeGroup8, hg, hn]

/-- An opcode with the used bits of an instruction is that instruction: its ignored bits may be cleared, which leaves
the canonical opcode. -/
theorem decode_of_and_usedBits {i : Instr} (hi : i.WellFormed) (hne : i ≠ .invalid)
    (h : w &&& i.usedBits = encode i) : decode w = i := by
  suffices hclear : decode (w &&& i.usedBits) = decode w by rw [← hclear, h, decode_encode hi]
  have hgroup := congrArg Opcode.group h
  have hnibble := congrArg Opcode.nibble h
  cases i with
  | clearScreen | ret | scrollRight | scrollLeft | highResolutionOff | highResolutionOn | scrollDown =>
    exact decode_and_0xF0FF (by simpa [Instr.usedBits, encode] using hgroup)
  | skipIfEqualReg => exact decode_and_0xFFF0 (.inl (by simpa [Instr.usedBits, encode] using hgroup))
  | skipIfUnequalReg => exact decode_and_0xFFF0 (.inr (by simpa [Instr.usedBits, encode] using hgroup))
  | shiftRight =>
    exact decode_and_0xFF0F (by simpa [Instr.usedBits, encode] using hgroup)
      (.inl (by simpa [Instr.usedBits, encode] using hnibble))
  | shiftLeft =>
    exact decode_and_0xFF0F (by simpa [Instr.usedBits, encode] using hgroup)
      (.inr (by simpa [Instr.usedBits, encode] using hnibble))
  | invalid => exact absurd rfl hne
  | _ => exact congrArg decode (and_0xFFFF w)

/-- Settles O5: the bits the two opcodes share are the canonical opcode of what the first decodes to. -/
theorem ignoredBitsDoNotMatter : Obligations.IgnoredBitsDoNotMatter :=
  fun w _ hne h => decode_of_and_usedBits (decode_wellFormed w) hne (h.trans (encode_decode w).symm)

/-! ## The rows of the opcode table (R96, R102) -/

/-- The rows an opcode of group `g` can select: those of the group, and the last row. -/
def rowsOfGroup (g : Nibble) : List OpcodeRow := opcodeTable.filter fun r => r.mask.group = 0x0#4 ∨ r.pat.group = g

/-- The number of the first of `rows` that `w` selects. -/
def firstRow (rows : List OpcodeRow) (w : Opcode) : Nat := ((rows.find? (·.selects w)).map (·.order)).getD 43

theorem group_and (w m : Opcode) : (w &&& m).group = w.group &&& m.group := by
  rw [← packNibbles_fields m, and_packNibbles]; simp

theorem mem_rowsOfGroup {r : OpcodeRow} (hr : r ∈ opcodeTable) (hsel : r.selects w) : r ∈ rowsOfGroup w.group := by
  have hmask : ∀ r ∈ opcodeTable, r.mask.group = 0x0#4 ∨ r.mask.group = 0xF#4 := by decide
  obtain ⟨hpat, -⟩ : w &&& r.mask = r.pat ∧ _ := by simpa [OpcodeRow.selects] using hsel
  refine List.mem_filter.2 ⟨hr, decide_eq_true ((hmask r hr).imp_right fun hF => ?_)⟩
  rw [← hpat, group_and, hF, nibble_and_0xF]

theorem tableRow_eq_firstRow {g : Nibble} (hg : w.group = g) : tableRow w = firstRow (rowsOfGroup g) w := by
  subst hg
  have hfind : opcodeTable.find? (·.selects w) = (rowsOfGroup w.group).find? (·.selects w) := by
    refine (List.find?_congr fun r hr => ?_).trans List.find?_filter.symm
    by_cases hsel : r.selects w
    · simpa [hsel] using (List.mem_filter.1 (mem_rowsOfGroup hr hsel)).2
    · simp [hsel]
  rw [tableRow, firstRow, hfind]

/-- A row that tests the group alone. -/
def groupRow (order : Nat) (g : Nibble) : OpcodeRow := ⟨order, 0xF000, packNibbles g 0x0#4 0x0#4 0x0#4, false⟩

/-- A row that tests the group and the last nibble. -/
def nibbleRow (order : Nat) (g n : Nibble) : OpcodeRow := ⟨order, 0xF00F, packNibbles g 0x0#4 0x0#4 n, false⟩

/-- A row that tests the group and the second byte. -/
def byteRow (order : Nat) (g : Nibble) (k : Byte) : OpcodeRow := ⟨order, 0xF0FF, packByte g 0x0#4 k, false⟩

/-- The ScrollDown row, which tests the group and `y`. -/
def scrollDownRow : OpcodeRow := ⟨7, 0xF0F0, packNibbles 0x0#4 0x0#4 0xC#4 0x0#4, false⟩

/-- The Draw row, the one with an except condition. -/
def drawRow : OpcodeRow := ⟨29, 0xF000, packNibbles 0xD#4 0x0#4 0x0#4 0x0#4, true⟩

/-- The last row, which selects every opcode. -/
def invalidRow : OpcodeRow := ⟨43, 0x0000, 0x0000, false⟩

section
variable (order : Nat) (g n : Nibble) (k : Byte) (rows : List OpcodeRow)

theorem firstRow_cons (r : OpcodeRow) :
    firstRow (r :: rows) w = if r.selects w then r.order else firstRow rows w := by
  unfold firstRow
  rw [List.find?_cons]
  cases r.selects w <;> rfl

@[simp] theorem firstRow_groupRow :
    firstRow (groupRow order g :: rows) w = if w.group = g then order else firstRow rows w := by
  simp [firstRow_cons, OpcodeRow.selects, groupRow, packNibbles_eq_iff]

@[simp] theorem firstRow_nibbleRow :
    firstRow (nibbleRow order g n :: rows) w = if w.group = g ∧ w.nibble = n then order else firstRow rows w := by
  simp [firstRow_cons, OpcodeRow.selects, nibbleRow, packNibbles_eq_iff]

@[simp] theorem firstRow_byteRow :
    firstRow (byteRow order g k :: rows) w = if w.group = g ∧ w.byte = k then order else firstRow rows w := by
  simp [firstRow_cons, OpcodeRow.selects, byteRow, packNibbles_eq_packByte_iff, ← byte_eq_append]

@[simp] theorem firstRow_scrollDownRow :
    firstRow (scrollDownRow :: rows) w = if w.group = 0x0#4 ∧ w.y = 0xC#4 then 7 else firstRow rows w := by
  simp [firstRow_cons, OpcodeRow.selects, scrollDownRow, packNibbles_eq_iff]

@[simp] theorem firstRow_drawRow :
    firstRow (drawRow :: rows) w = if w.group = 0xD#4 ∧ w.nibble ≠ 0x0#4 then 29 else firstRow rows w := by
  simp [firstRow_cons, OpcodeRow.selects, drawRow, packNibbles_eq_iff]

@[simp] theorem firstRow_invalidRow : firstRow (invalidRow :: rows) w = 43 := by
  simp [firstRow_cons, OpcodeRow.selects, invalidRow]

end

theorem rowsOfGroup_0x0 : rowsOfGroup 0x0#4 =
    [byteRow 1 0x0 0xE0, byteRow 2 0x0 0xEE, byteRow 3 0x0 0xFB, byteRow 4 0x0 0xFC, byteRow 5 0x0 0xFE,
     byteRow 6 0x0 0xFF, scrollDownRow, invalidRow] := rfl

theorem rowsOfGroup_0x8 : rowsOfGroup 0x8#4 =
    [nibbleRow 15 0x8 0x0, nibbleRow 16 0x8 0x1, nibbleRow 17 0x8 0x2, nibbleRow 18 0x8 0x3, nibbleRow 19 0x8 0x4,
     nibbleRow 20 0x8 0x5, nibbleRow 21 0x8 0x6, nibbleRow 22 0x8 0x7, nibbleRow 23 0x8 0xE, invalidRow] := rfl

theorem rowsOfGroup_0xD : rowsOfGroup 0xD#4 = [nibbleRow 28 0xD 0x0, drawRow, invalidRow] := rfl

theorem rowsOfGroup_0xE : rowsOfGroup 0xE#4 = [byteRow 30 0xE 0x9E, byteRow 31 0xE 0xA1, invalidRow] := rfl

theorem rowsOfGroup_0xF : rowsOfGroup 0xF#4 =
    [byteRow 32 0xF 0x07, byteRow 33 0xF 0x0A, byteRow 34 0xF 0x15, byteRow 35 0xF 0x18, byteRow 36 0xF 0x1E,
     byteRow 37 0xF 0x29, byteRow 38 0xF 0x33, byteRow 39 0xF 0x55, byteRow 40 0xF 0x65, byteRow 41 0xF 0x75,
     byteRow 42 0xF 0x85, invalidRow] := rfl

/-! ## The decoder's cases are the rows (R95, R102) -/

theorem row_decodeGroup0 (hg : w.group = 0x0#4) : (decodeGroup0 w).row = tableRow w := by
  rw [tableRow_eq_firstRow hg, rowsOfGroup_0x0]
  unfold decodeGroup0
  split
  case h_7 => split <;> simp_all [Instr.row]
  all_goals simp [Instr.row, *]

theorem row_decodeGroup8 (hg : w.group = 0x8#4) : (decodeGroup8 w).row = tableRow w := by
  rw [tableRow_eq_firstRow hg, rowsOfGroup_0x8]
  unfold decodeGroup8
  split <;> simp_all [Instr.row]

theorem row_decodeGroupD (hg : w.group = 0xD#4) : (decodeGroupD w).row = tableRow w := by
  rw [tableRow_eq_firstRow hg, rowsOfGroup_0xD]
  unfold decodeGroupD
  split <;> simp [Instr.row, *]

theorem row_decodeGroupE (hg : w.group = 0xE#4) : (decodeGroupE w).row = tableRow w := by
  rw [tableRow_eq_firstRow hg, rowsOfGroup_0xE]
  unfold decodeGroupE
  split <;> simp_all [Instr.row]

theorem row_decodeGroupF (hg : w.group = 0xF#4) : (decodeGroupF w).row = tableRow w := by
  rw [tableRow_eq_firstRow hg, rowsOfGroup_0xF]
  unfold decodeGroupF
  split <;> simp_all [Instr.row]

/-- A group with one row. -/
theorem tableRow_of_one_row {g : Nibble} {order : Nat} (hg : w.group = g)
    (hrows : rowsOfGroup g = [groupRow order g, invalidRow]) : tableRow w = order := by
  rw [tableRow_eq_firstRow hg, hrows, firstRow_groupRow, if_pos hg]

theorem row_decode (w : Opcode) : (decode w).row = tableRow w := by
  unfold decode
  split
  case h_1 hg => exact row_decodeGroup0 hg
  case h_9 hg => exact row_decodeGroup8 hg
  case h_14 hg => exact row_decodeGroupD hg
  case h_15 hg => exact row_decodeGroupE hg
  case h_16 => exact row_decodeGroupF (nibble_eq_0xF _ (by simp_all))
  all_goals exact (tableRow_of_one_row ‹_› rfl).symm

/-- Settles O3, group by group. -/
theorem decodeFollowsOpcodeTable : Obligations.DecodeFollowsOpcodeTable :=
  fun w => ⟨decode_wellFormed w, row_decode w⟩

/-! ## Invalid opcodes (R98)

Which opcodes of a group are Invalid is read off the rows of the group: those that select none but the last. -/

theorem eq_invalid_iff_row (i : Instr) : i = .invalid ↔ i.row = 43 := by
  cases i <;> simp [Instr.row]

theorem decodeGroup0_eq_invalid (hg : w.group = 0x0#4) : decodeGroup0 w = .invalid ↔
    w.byte ∉ [0xE0#8, 0xEE#8, 0xFB#8, 0xFC#8, 0xFE#8, 0xFF#8] ∧ w.y ≠ 0xC#4 := by
  rw [eq_invalid_iff_row, row_decodeGroup0 hg, tableRow_eq_firstRow hg, rowsOfGroup_0x0]
  simp [ite_eq_iff, hg, and_assoc]

/-- The sub-keys of group 0x8 that are no instruction are those no row lists. -/
theorem invalidSubkeys_iff : ∀ n : Nibble, n ∈ [0x8#4, 0x9#4, 0xA#4, 0xB#4, 0xC#4, 0xD#4, 0xF#4] ↔
    n ∉ [0x0#4, 0x1#4, 0x2#4, 0x3#4, 0x4#4, 0x5#4, 0x6#4, 0x7#4, 0xE#4] := by decide

theorem decodeGroup8_eq_invalid (hg : w.group = 0x8#4) : decodeGroup8 w = .invalid ↔
    w.nibble ∈ [0x8#4, 0x9#4, 0xA#4, 0xB#4, 0xC#4, 0xD#4, 0xF#4] := by
  rw [invalidSubkeys_iff, eq_invalid_iff_row, row_decodeGroup8 hg, tableRow_eq_firstRow hg, rowsOfGroup_0x8]
  simp [ite_eq_iff, hg]

theorem decodeGroupD_ne_invalid (hg : w.group = 0xD#4) : decodeGroupD w ≠ .invalid := by
  rw [Ne, eq_invalid_iff_row, row_decodeGroupD hg, tableRow_eq_firstRow hg, rowsOfGroup_0xD]
  simp [ite_eq_iff, hg]

theorem decodeGroupE_eq_invalid (hg : w.group = 0xE#4) : decodeGroupE w = .invalid ↔ w.byte ∉ [0x9E#8, 0xA1#8] := by
  rw [eq_invalid_iff_row, row_decodeGroupE hg, tableRow_eq_firstRow hg, rowsOfGroup_0xE]
  simp [ite_eq_iff, hg]

theorem decodeGroupF_eq_invalid (hg : w.group = 0xF#4) : decodeGroupF w = .invalid ↔
    w.byte ∉ [0x07#8, 0x0A#8, 0x15#8, 0x18#8, 0x1E#8, 0x29#8, 0x33#8, 0x55#8, 0x65#8, 0x75#8, 0x85#8] := by
  rw [eq_invalid_iff_row, row_decodeGroupF hg, tableRow_eq_firstRow hg, rowsOfGroup_0xF]
  simp [ite_eq_iff, hg]

/-- Settles O4: the other eleven groups have no Invalid opcode. -/
theorem invalidOpcodesByGroup : Obligations.InvalidOpcodesByGroup := by
  intro w
  unfold decode
  split
  case h_1 hg => simp [hg, decodeGroup0_eq_invalid hg]
  case h_9 hg => simp [hg, decodeGroup8_eq_invalid hg]
  case h_14 hg => simp [hg, decodeGroupD_ne_invalid hg]
  case h_15 hg => simp [hg, decodeGroupE_eq_invalid hg]
  case h_16 =>
    have hg : w.group = 0xF#4 := nibble_eq_0xF _ (by simp_all)
    simp [hg, decodeGroupF_eq_invalid hg]
  all_goals simp [*]

/-- Settles O6, by running the decoder and the table. -/
theorem workedDecodings : Obligations.WorkedDecodings := by
  unfold Obligations.WorkedDecodings
  decide

end Sys2Proof

/-! PROOFS. Family 40_step_and_dispatch.md: one STEP (R120 to R131) and the output `disp_changed` after every command
(R129, R272, R278, R281). The shared layer says once what a STEP does and that a well-formed instruction answers a next
state. -/

namespace Sys2Proof.Machine

section
variable {i : Instr} {cmd : Command} {s t : State} {c : FaultCode}

/-! ## Answering a next state (R126, R296) -/

theorem commit_answers_next (s : State) (r : Except FaultCode State) : ∃ t, commit s r = .next t := by
  rcases commit_cases s r with ⟨t, _, ht⟩ | ⟨c, _, hc⟩
  · exact ⟨t, ht⟩
  · exact ⟨_, hc⟩

/-- The named cases are the instructions that can fault; `_` stands for those that cannot. -/
theorem exec_answers_next (hi : i.WellFormed) (s : State) : ∃ t, exec i s = .next t := by
  cases i with
  | draw x y n =>
    show ∃ t, execDraw x y n s = .next t
    rw [execDraw, if_neg hi]
    exact commit_answers_next s _
  | call | ret | drawLarge | scrollRight | scrollLeft | scrollDown | storeDecimal | storeRegisters | loadRegisters
  | storeRegistersRPL | loadRegistersRPL | skipIfKey | skipIfNotKey => exact commit_answers_next s _
  | _ => exact ⟨_, rfl⟩

/-- An instruction that ends Halted has taken its fault: no instruction that executes halts (R296). -/
theorem eq_halted_of_exec (hrun : s.run = .running) (h : exec i s = .next t) (ht : t.run = .halted c) :
    t = { s with run := .halted c } := by
  cases exec_cases h with
  | executes _ hframe =>
    cases i with
    | keyBlock x => cases h; cases ht
    | _ => cases ht.symm.trans ((congrArg State.run hframe).trans hrun)
  | faults _ _ heq => subst heq; cases ht; rfl

/-! ## One STEP (R120, R121, R125) -/

/-- The two bytes at `pc`, most significant first. -/
def State.opcodeAtPc (s : State) : Opcode := Opcode.ofBytes (s.byteAt s.pc.toNat) (s.byteAt (s.pc.toNat + 1))

theorem stepCore_of_ne_running (hrun : s.run ≠ .running) : stepCore s = .next s := by
  unfold stepCore
  split
  · exact absurd ‹_› hrun
  · rfl
  · rfl

theorem stepCore_of_fetch_error (hrun : s.run = .running) (hpc : 0xFFE < s.pc.toNat) :
    stepCore s = .next { s with run := .halted .fetchOutOfRange } := by
  rw [stepCore, hrun, cycle, State.fetch_error hpc]; rfl

theorem stepCore_of_fetch_ok (hrun : s.run = .running) (hpc : s.pc.toNat ≤ 0xFFE) :
    stepCore s = exec (decode s.opcodeAtPc) s := by
  rw [stepCore, hrun, cycle, State.fetch_ok hpc]; rfl

/-- Whatever the state, a STEP is ignored, faults in the fetch, or executes the instruction at `pc`. -/
theorem stepCore_cases (s : State) :
    (s.run ≠ .running ∧ stepCore s = .next s) ∨
    (s.run = .running ∧ stepCore s = .next { s with run := .halted .fetchOutOfRange }) ∨
    (s.run = .running ∧ stepCore s = exec (decode s.opcodeAtPc) s) := by
  by_cases hrun : s.run = .running
  · by_cases hpc : s.pc.toNat ≤ 0xFFE
    · exact .inr (.inr ⟨hrun, stepCore_of_fetch_ok hrun hpc⟩)
    · exact .inr (.inl ⟨hrun, stepCore_of_fetch_error hrun (Nat.not_le.1 hpc)⟩)
  · exact .inl ⟨hrun, stepCore_of_ne_running hrun⟩

/-- Decoding answers no Draw with nibble 0, so the instruction a STEP executes is well-formed. -/
theorem stepCore_answers_next (s : State) : ∃ t, stepCore s = .next t := by
  rcases stepCore_cases s with ⟨_, h⟩ | ⟨_, h⟩ | ⟨_, h⟩
  · exact ⟨_, h⟩
  · exact ⟨_, h⟩
  · rw [h]; exact exec_answers_next (decode_wellFormed _) s

/-- A STEP that faults or is ignored keeps the grid. -/
theorem stepCore_disp_eq (h : stepCore s = .next t) (hno : (∃ c, t.run = .halted c) ∨ s.run ≠ .running) :
    t.disp = s.disp := by
  rcases stepCore_cases s with ⟨_, hs⟩ | ⟨_, hs⟩ | ⟨hrun, hs⟩ <;> rw [hs] at h
  · cases h; rfl
  · cases h; rfl
  · obtain ⟨c, hc⟩ := hno.resolve_right (not_not.2 hrun)
    rw [eq_halted_of_exec hrun h hc]

/-! ## One transaction (R271, R292) -/

theorem transact_answers_next (cmd : Command) (s : State) : ∃ t, transact cmd s = .next t := by
  cases cmd with
  | step r => exact stepCore_answers_next { s with rand := r }
  | _ => exact ⟨_, rfl⟩

theorem State.dequeue_nil (h : s.host = []) : s.dequeue = { s with draws := s.draws + 1 } := by
  unfold State.dequeue; rw [h]

theorem State.dequeue_cons {rest : List Command} (h : s.host = cmd :: rest) : s.dequeue = { s with host := rest } := by
  unfold State.dequeue; rw [h]

@[simp] theorem State.dequeue_disp (s : State) : s.dequeue.disp = s.disp := by rw [State.dequeue_eq]

@[simp] theorem State.dequeue_run (s : State) : s.dequeue.run = s.run := by rw [State.dequeue_eq]

/-- A transaction whose command is a STEP, in a state `u` (the input fields taken) that is Running with an opcode in RAM
at `pc`: the opcode's instruction is executed in `u`, and then the output is set. -/
theorem step_runs_exec {u : State} {r : Byte} (hcmd : s.nextCommand = .step r) (hu : { s.dequeue with rand := r } = u)
    (hrun : u.run = .running) (hpc : u.pc.toNat ≤ 0xFFE) :
    ∃ t, exec (decode u.opcodeAtPc) u = .next t ∧
      step s = .next { t with dispChanged := decide (s.disp ≠ t.disp) } := by
  obtain ⟨t, ht⟩ := exec_answers_next (decode_wellFormed u.opcodeAtPc) u
  have htransact : transact s.nextCommand s.dequeue = .next t :=
    calc transact s.nextCommand s.dequeue
        = stepCore { s.dequeue with rand := r } := by rw [hcmd]; rfl
      _ = exec (decode u.opcodeAtPc) u := by rw [hu, stepCore_of_fetch_ok hrun hpc]
      _ = .next t := ht
  exact ⟨t, ht, runNext_next.2 ⟨t, htransact, by rw [hcmd]; rfl⟩⟩

/-! ## The output disp_changed (R129, R272, R278, R281) -/

theorem Grid.ne_iff_cell_ne {d e : Grid} :
    d ≠ e ↔ ∃ gx gy, gx < 128 ∧ gy < 64 ∧ d.cell gx gy ≠ e.cell gx gy := by
  constructor
  · intro hne
    by_contra hall
    push Not at hall
    exact hne (Grid.ext_cell hall)
  · rintro ⟨gx, gy, _, _, hcell⟩ rfl
    exact hcell rfl

theorem Command.dispChanged_of_other (hstep : ∀ r, cmd ≠ .step r) (hidle : cmd ≠ .idle) :
    cmd.dispChanged s t = false := by
  cases cmd with
  | step r => exact absurd rfl (hstep r)
  | idle => exact absurd rfl hidle
  | _ => rfl

end

/-- Settles O30: the meaning of Invalid is the advance of the pc alone. -/
theorem invalidIsNoOp : Obligations.InvalidIsNoOp := fun _ => rfl

/-- Settles O9. -/
theorem stepIgnoredUnlessRunning : Obligations.StepIgnoredUnlessRunning :=
  fun _ _ hrun => stepCore_of_ne_running hrun

/-- Settles O8. -/
theorem fetchPastRamFaults : Obligations.FetchPastRamFaults :=
  fun _ _ hrun hpc => stepCore_of_fetch_error hrun hpc

/-- Settles O7: the two clauses differ in the input fields alone, and no fetch reads those. -/
theorem stepRunsDecodedInstruction : Obligations.StepRunsDecodedInstruction := by
  intro s hrun hpc
  constructor
  · intro hnil
    exact step_runs_exec (u := { s with rand := Config.freeRand s.draws, draws := s.draws + 1 })
      (State.nextCommand_nil hnil) (by rw [State.dequeue_nil hnil]) hrun hpc
  · intro r rest hcons
    exact step_runs_exec (u := { s with rand := r, host := rest })
      (State.nextCommand_cons hcons) (by rw [State.dequeue_cons hcons]) hrun hpc

/-- Settles O10: every command answers a next state, and setting the output refuses none. -/
theorem everyStepAnswersNext : Obligations.EveryStepAnswersNext := by
  intro s
  obtain ⟨u, hu⟩ := transact_answers_next s.nextCommand s.dequeue
  exact ⟨_, runNext_next.2 ⟨u, hu, rfl⟩⟩

/-- Settles O57: two grids differ exactly when a cell does, and a STEP that faults or is ignored keeps the grid. -/
theorem dispChangedMeansACellDiffers : Obligations.DispChangedMeansACellDiffers := by
  intro s t h
  obtain ⟨u, hu, rfl⟩ := runNext_next.1 h
  refine ⟨fun r hcmd => ?_, fun hcmd => ?_, Command.dispChanged_of_other⟩
  · rw [hcmd] at hu ⊢
    refine ⟨decide_eq_true_iff.trans Grid.ne_iff_cell_ne, fun hno => ?_⟩
    have hdisp : u.disp = s.dequeue.disp :=
      stepCore_disp_eq (s := { s.dequeue with rand := r }) hu (s.dequeue_run.symm ▸ hno)
    simp [Command.dispChanged, hdisp]
  · rw [hcmd]
    cases hkeeps : Config.idleKeepsDispChanged <;> simp [Command.dispChanged, hkeeps]

end Sys2Proof.Machine

/-! PROOFS. Family 41_control_flow.md: jumps, call, return and the compare skips (R140 to R147). The effect and the fault
of Call and Return are stated once each, and what a skip does as one update of the pc. -/

namespace Sys2Proof.Machine

section
variable {s : State}

/-- The top nibble of the address names the register of JumpPlus (R141). -/
theorem jumpPlusReg_eq (a : Addr12) : jumpPlusReg a = BitVec.ofNat 4 (a.toNat / 256) :=
  congrArg (BitVec.ofNat 4) (Nat.shiftRight_eq_div_pow a.toNat 8)

/-! ## Call and Return (R142, R143) -/

theorem exec_call_of_room (a : Addr12) (h : s.sp < s.stackDepth) :
    exec (.call a) s = .next { s with stack := s.npc :: s.stack, pc := zextAddr a } :=
  (execCall_eq s a).trans (if_pos h)

theorem exec_call_of_full (a : Addr12) (h : s.stackDepth ≤ s.sp) :
    exec (.call a) s = .next { s with run := .halted .stackOverflow } :=
  (execCall_eq s a).trans (if_neg (Nat.not_lt.2 h))

theorem exec_ret_of_cons {v : Word} {rest : List Word} (h : s.stack = v :: rest) :
    exec .ret s = .next { s with pc := v, stack := rest } :=
  (execReturn_eq s).trans (by rw [h])

theorem exec_ret_of_nil (h : s.stack = []) : exec .ret s = .next { s with run := .halted .stackUnderflow } := by
  refine (execReturn_eq s).trans ?_
  split
  · rfl
  · cases h.symm.trans ‹_›

/-! ## Skips (R144 to R147) -/

/-- Two advances past a 2-byte opcode are one by 4 (R144). -/
theorem State.skipIf_decide (s : State) (p : Prop) [Decidable p] :
    s.skipIf (decide p) = { s with pc := s.pc + (if p then 4#16 else 2#16) } := by
  have hskip : s.npc + 2#16 = s.pc + 4#16 := BitVec.add_assoc ..
  by_cases hp : p
  · simp [State.skipIf, State.goto, hp, hskip]
  · simp [State.skipIf, State.goto, hp, State.npc]

/-- The skip of the opposite condition. -/
theorem State.skipIf_decide_not (s : State) (p : Prop) [Decidable p] :
    s.skipIf (decide ¬p) = { s with pc := s.pc + (if p then 2#16 else 4#16) } := by
  rw [State.skipIf_decide, ite_not]

end

/-- Settles O25: neither target wraps, for a JumpPlus reaches at most 0xFFF + 0xFF. -/
theorem jumpsSetOnlyPc : Obligations.JumpsSetOnlyPc := by
  intro a s
  refine ⟨⟨_, rfl, rfl, zextAddr_toNat a⟩, ⟨_, rfl, rfl, ?_⟩⟩
  rw [← jumpPlusReg_eq]
  exact jumpPlus_toNat a _

/-- Settles O26. -/
theorem callPushesReturnAddress : Obligations.CallPushesReturnAddress := fun a _ =>
  ⟨fun hroom => ⟨_, exec_call_of_room a hroom, rfl, rfl, rfl, zextAddr_toNat a⟩,
    fun hfull => exec_call_of_full a hfull.ge⟩

/-- Settles O27. -/
theorem returnPopsIntoPc : Obligations.ReturnPopsIntoPc := fun _ =>
  ⟨fun _ _ hstack => exec_ret_of_cons hstack, fun hempty => exec_ret_of_nil (List.length_eq_zero_iff.1 hempty)⟩

/-- Settles O28: the entry Return pops is the one Call pushed. -/
theorem returnUndoesCall : Obligations.ReturnUndoesCall := fun a _ hroom =>
  ⟨_, _, exec_call_of_room a hroom, exec_ret_of_cons rfl, rfl⟩

/-- Settles O29: each is one skip on its condition or on the opposite one. -/
theorem compareSkipsAdvanceTwoOrFour : Obligations.CompareSkipsAdvanceTwoOrFour := fun x y k s =>
  ⟨congrArg _ (s.skipIf_decide (s.reg x = k)), congrArg _ (s.skipIf_decide_not (s.reg x = k)),
    congrArg _ (s.skipIf_decide (s.reg x = s.reg y)), congrArg _ (s.skipIf_decide_not (s.reg x = s.reg y))⟩

end Sys2Proof.Machine

/-! PROOFS. Family 42_arithmetic.md: loads, the 8-bit ALU and Random (R162 to R176). What each register holds after an
ordinary result write and after a flag write with a result write is stated once each, and every flag and every result
as a number. -/

namespace Sys2Proof.Machine

section
variable {s : State} {x r : RegIx} {f : Bool} {v a b : Byte}

/-! ## The registers after a result write (R126, R161) -/

theorem State.reg_advance_setReg_self : (s.setReg x v).advance.reg x = v := by
  rw [State.reg_advance, State.reg_setReg, if_pos rfl]

theorem State.reg_advance_setReg_of_ne (hr : r ≠ x) : (s.setReg x v).advance.reg r = s.reg r := by
  rw [State.reg_advance, State.reg_setReg, if_neg hr]

/-- The result survives, whatever `x` is (D14). -/
theorem State.reg_advance_setFlagThenReg_self : (s.setFlagThenReg f x v).advance.reg x = v := by
  rw [State.reg_advance, State.reg_setFlagThenReg, if_pos rfl]

theorem State.reg_advance_setFlagThenReg_flag (hx : x ≠ 0xF#4) :
    (s.setFlagThenReg f x v).advance.reg 0xF#4 = flagByte f := by
  rw [State.reg_advance, State.reg_setFlagThenReg, if_neg hx.symm, if_pos (show 0xF#4 = flagReg from rfl)]

theorem State.reg_advance_setFlagThenReg_of_ne (hr : r ≠ x) (hf : r ≠ 0xF#4) :
    (s.setFlagThenReg f x v).advance.reg r = s.reg r := by
  rw [State.reg_advance, State.reg_setFlagThenReg, if_neg hr, if_neg (show r ≠ flagReg from hf)]

/-! ## Flags as numbers (R160) -/

theorem flagByte_toNat : (flagByte f).toNat = f.toNat := by
  cases f <;> rfl

theorem flagByte_carry_toNat : (flagByte (carry a b)).toNat = if a.toNat + b.toNat > 255 then 1 else 0 :=
  flagByte_toNat.trans (Bool.cond_decide ..)

theorem flagByte_notBorrow_toNat : (flagByte (notBorrow a b)).toNat = if a.toNat ≥ b.toNat then 1 else 0 :=
  flagByte_toNat.trans (Bool.cond_decide ..)

theorem flagByte_getLsbD_toNat (i : Nat) : (flagByte (a.getLsbD i)).toNat = a.toNat / 2 ^ i % 2 :=
  flagByte_toNat.trans (Nat.toNat_testBit a.toNat i)

theorem flagByte_shiftedOutRight_toNat : (flagByte (shiftedOutRight a)).toNat = a.toNat % 2 := by
  rw [shiftedOutRight, flagByte_getLsbD_toNat, Nat.pow_zero, Nat.div_one]

/-- Bit 7 is the top bit of a byte. -/
theorem flagByte_shiftedOutLeft_toNat : (flagByte (shiftedOutLeft a)).toNat = a.toNat / 128 :=
  (flagByte_getLsbD_toNat 7).trans (Nat.mod_eq_of_lt (Nat.div_lt_of_lt_mul a.isLt))

/-! ## Results as numbers (R163, R168 to R172) -/

theorem addBytes_toNat : (addBytes a b).toNat = (a.toNat + b.toNat) % 256 :=
  BitVec.toNat_ofNat ..

theorem subBytes_toNat : ((subBytes a b).toNat : Int) = ((a.toNat : Int) - b.toNat) % 256 := by
  have hb := b.isLt
  have hsub : (subBytes a b).toNat = (a.toNat + 256 - b.toNat) % 256 := BitVec.toNat_ofNat ..
  omega

theorem shiftRight_one_toNat : (a >>> 1).toNat = a.toNat / 2 :=
  (BitVec.toNat_ushiftRight ..).trans (Nat.shiftRight_eq_div_pow ..)

theorem shiftLeft_one_toNat : (a <<< 1).toNat = a.toNat * 2 % 256 := by
  rw [BitVec.toNat_shiftLeft, Nat.shiftLeft_eq]

end

/-- Settles O31. -/
theorem loadsWriteTheirRegister : Obligations.LoadsWriteTheirRegister := fun _ _ _ _ =>
  ⟨⟨_, rfl, rfl, State.reg_advance_setReg_self, fun _ => State.reg_advance_setReg_of_ne⟩,
    ⟨_, rfl, rfl, State.reg_advance_setReg_self, fun _ => State.reg_advance_setReg_of_ne⟩⟩

/-- Settles O32: the result is the bit vector's own operation, which acts on each bit alone. -/
theorem bitwiseOperations : Obligations.BitwiseOperations := by
  intro x y s
  refine ⟨⟨_, rfl, rfl, fun j _ => ?_, fun _ => State.reg_advance_setReg_of_ne⟩,
    ⟨_, rfl, rfl, fun j _ => ?_, fun _ => State.reg_advance_setReg_of_ne⟩,
    ⟨_, rfl, rfl, fun j _ => ?_, fun _ => State.reg_advance_setReg_of_ne⟩⟩
  · rw [State.reg_advance_setReg_self, BitVec.getLsbD_or]
  · rw [State.reg_advance_setReg_self, BitVec.getLsbD_and]
  · rw [State.reg_advance_setReg_self, BitVec.getLsbD_xor]

/-- Settles O33. -/
theorem additionsWriteSumAndCarry : Obligations.AdditionsWriteSumAndCarry := by
  intro x y k s
  refine ⟨⟨_, rfl, rfl, ?_, fun hx => ?_, fun _ => State.reg_advance_setFlagThenReg_of_ne⟩,
    ⟨_, rfl, rfl, ?_, fun _ => State.reg_advance_setReg_of_ne⟩⟩
  · rw [State.reg_advance_setFlagThenReg_self, addBytes_toNat]
  · rw [State.reg_advance_setFlagThenReg_flag hx, flagByte_carry_toNat]
  · rw [State.reg_advance_setReg_self, addBytes_toNat]

/-- Settles O34. -/
theorem subtractionsWriteNotBorrow : Obligations.SubtractionsWriteNotBorrow := by
  intro x y s
  refine ⟨⟨_, rfl, rfl, ?_, fun hx => ?_, fun _ => State.reg_advance_setFlagThenReg_of_ne⟩,
    ⟨_, rfl, rfl, ?_, fun hx => ?_, fun _ => State.reg_advance_setFlagThenReg_of_ne⟩⟩
  · rw [State.reg_advance_setFlagThenReg_self, subBytes_toNat]
  · rw [State.reg_advance_setFlagThenReg_flag hx, flagByte_notBorrow_toNat]
  · rw [State.reg_advance_setFlagThenReg_self, subBytes_toNat]
  · rw [State.reg_advance_setFlagThenReg_flag hx, flagByte_notBorrow_toNat]

/-- Settles O35. -/
theorem shiftsWriteTheBitShiftedOut : Obligations.ShiftsWriteTheBitShiftedOut := by
  intro x s
  refine ⟨⟨_, rfl, rfl, ?_, fun hx => ?_, fun _ => State.reg_advance_setFlagThenReg_of_ne⟩,
    ⟨_, rfl, rfl, ?_, fun hx => ?_, fun _ => State.reg_advance_setFlagThenReg_of_ne⟩⟩
  · rw [State.reg_advance_setFlagThenReg_self, shiftRight_one_toNat]
  · rw [State.reg_advance_setFlagThenReg_flag hx, flagByte_shiftedOutRight_toNat]
  · rw [State.reg_advance_setFlagThenReg_self, shiftLeft_one_toNat]
  · rw [State.reg_advance_setFlagThenReg_flag hx, flagByte_shiftedOutLeft_toNat]

/-- Settles O36: the byte is the field `rand` as the instruction finds it. -/
theorem randomMasksThePortByte : Obligations.RandomMasksThePortByte := by
  intro x k s
  refine ⟨_, rfl, rfl, fun j _ => ?_, fun _ => State.reg_advance_setReg_of_ne⟩
  rw [State.reg_advance_setReg_self, BitVec.getLsbD_and]

end Sys2Proof.Machine

/-! PROOFS. Family 43_pointer_and_memory.md: the pointer instructions and the bulk transfers (R191 to R199). What a byte
of a stored range and a slot of an overlaid file hold is stated once each, within the range and outside it. -/

namespace Sys2Proof.Machine

section
variable {s : State} {x : RegIx}

/-! ## Numbers cut to a width (R191 to R194) -/

theorem trunc16_toNat (n : Nat) : (trunc16 n).toNat = n % 65536 := BitVec.toNat_ofNat ..

theorem trunc8_toNat_of_lt {n : Nat} (h : n < 256) : (trunc8 n).toNat = n :=
  (BitVec.toNat_ofNat ..).trans (Nat.mod_eq_of_lt h)

/-! ## A range of bytes stored from `I` (R66, R194, R195) -/

section
variable {m : Memory} {bytes : List Byte}
  (hread : ∀ b, Memory.read m b = if s.ea 0 ≤ b then (bytes[b - s.ea 0]?).getD (s.byteAt b) else s.byteAt b)
include hread

theorem read_stored_of_getElem? {i : Nat} {v : Byte} (hv : bytes[i]? = some v) : Memory.read m (s.ea i) = v := by
  have hle : s.ea 0 ≤ s.ea i := Nat.add_le_add_left (Nat.zero_le i) _
  have hsub : s.ea i - s.ea 0 = i := Nat.add_sub_cancel_left ..
  rw [hread, if_pos hle, hsub, hv, Option.getD_some]

theorem read_stored_of_outside {a : Nat} (ha : a < s.ea 0 ∨ s.ea bytes.length ≤ a) :
    Memory.read m a = s.byteAt a := by
  by_contra hne
  obtain ⟨hlo, hhi⟩ := range_of_overlaid_ne (hread a ▸ hne)
  simp only [State.ea] at ha hlo hhi
  omega

end

/-- The byte a bulk transfer moves for register `r` (R195, R198). -/
theorem State.regsTo_toNat_getElem? {r : RegIx} (h : r.toNat ≤ x.toNat) :
    (s.regsTo x)[r.toNat]? = some (s.reg r) := by
  rw [State.regsTo_getElem? s x _ h, BitVec.ofNat_toNat, BitVec.setWidth_eq]

/-! ## Slots overlaid on a file (R196, R198, R199) -/

/-- The first slots of one file laid over another. -/
theorem getElem_overlay_take {n k : Nat} (old : Vector Byte n) (new : Vector Byte k) (l i : Nat) (hn : i < n)
    (hk : i < k) : (overlay old (new.toList.take l))[i] = if i < l then new[i] else old[i] := by
  rw [getElem_overlay, List.getElem?_take]
  split
  · rw [Vector.getElem?_toList, Vector.getElem?_eq_getElem hk, Option.getD_some]
  · rfl

/-- A slot behind the bytes laid over its file keeps its value. -/
theorem getElem_overlay_of_length_le {n : Nat} (old : Vector Byte n) {bytes : List Byte} {i : Nat} (hn : i < n)
    (hi : bytes.length ≤ i) : (overlay old bytes)[i] = old[i] := by
  rw [getElem_overlay, List.getElem?_eq_none hi, Option.getD_none]

end

/-- Settles O37: GetDigit never wraps, for 5 times a byte is a word. -/
theorem pointerInstructionsWriteI : Obligations.PointerInstructionsWriteI := by
  intro a x s
  refine ⟨⟨_, rfl, rfl, zextAddr_toNat a⟩, ⟨_, rfl, rfl, trunc16_toNat _⟩, ⟨_, rfl, rfl, ?_⟩⟩
  have hbyte := (s.reg x).isLt
  exact (trunc16_toNat _).trans (Nat.mod_eq_of_lt (by omega))

/-- Settles O38: the stored range is the three digits, each a byte. -/
theorem storeDecimalWritesThreeDigits : Obligations.StoreDecimalWritesThreeDigits := by
  intro x s hs
  obtain ⟨m, heq, hw⟩ := execStoreDecimal_eq s x
  refine ⟨fun hle => ?_, fun hgt => heq.trans (if_neg (Nat.not_le.2 hgt))⟩
  obtain ⟨-, hread⟩ := hw hle hs
  have hdigit {i n : Nat} (hi : (decimalDigits (s.reg x))[i]? = some (trunc8 n)) (hn : n < 256) :
      (Memory.read m (s.ea i)).toNat = n := by
    rw [read_stored_of_getElem? hread hi, trunc8_toNat_of_lt hn]
  have hbyte := (s.reg x).isLt
  refine ⟨_, heq.trans (if_pos hle), rfl, hdigit rfl (by omega), hdigit rfl (by omega), hdigit rfl (by omega),
    fun a h0 h1 h2 => read_stored_of_outside hread ?_⟩
  have hlen : (decimalDigits (s.reg x)).length = 3 := rfl
  simp only [State.ea, hlen] at h0 h1 h2 ⊢
  omega

/-- Settles O39: the stored range is the registers `V[0]` to `V[x]`. -/
theorem storeRegistersWritesRange : Obligations.StoreRegistersWritesRange := by
  intro x s hs
  obtain ⟨m, heq, hw⟩ := execStoreRegisters_eq s x
  refine ⟨fun hle => ?_, fun hgt => heq.trans (if_neg (Nat.not_le.2 hgt))⟩
  obtain ⟨-, hread⟩ := hw hle hs
  refine ⟨_, heq.trans (if_pos hle), rfl, fun r hr => read_stored_of_getElem? hread (State.regsTo_toNat_getElem? hr),
    fun a ha => read_stored_of_outside hread ?_⟩
  rwa [State.length_regsTo]

/-- Settles O40: the bytes loaded are the `x + 1` bytes from `I`, laid over `V`; the model's list of them is
`State.spriteBytes` unfolded. -/
theorem loadRegistersReadsRange : Obligations.LoadRegistersReadsRange := by
  intro x s
  refine ⟨fun hle => ⟨_, (execLoadRegisters_eq s x).trans (if_pos hle), rfl, fun r => ?_⟩,
    fun hgt => (execLoadRegisters_eq s x).trans (if_neg (Nat.not_le.2 hgt))⟩
  change (overlay s.V (s.spriteBytes (x.toNat + 1)))[r.toNat] = _
  split <;> rename_i hr
  · rw [getElem_overlay, State.spriteBytes_getElem?, if_pos (Nat.lt_succ_of_le hr), Option.getD_some]
  · rw [getElem_overlay_of_length_le _ _ (by rw [State.length_spriteBytes]; omega), State.reg_eq]

/-- Settles O41: the load reads at the `I` of the store, which both keep, the bytes the store wrote. -/
theorem loadAfterStoreRestoresRegisters : Obligations.LoadAfterStoreRestoresRegisters := by
  intro x s corrupted hs hle
  obtain ⟨t, hstore, hframe, hbytes, -⟩ := (storeRegistersWritesRange x s hs).1 hle
  have hI : t.I = s.I := by rw [hframe]
  have hea (i : Nat) : State.ea { t with V := corrupted } i = s.ea i := congrArg (·.toNat + i) hI
  obtain ⟨u, hload, hframe', hregs⟩ :=
    (loadRegistersReadsRange x { t with V := corrupted }).1 ((hea _).trans_le hle)
  refine ⟨t, u, hstore, hload, fun r hr => ?_, ?_⟩
  · rw [hregs, if_pos hr, hea]
    exact hbytes r hr
  · rw [hframe']
    exact hI

/-- Settles O42: the slots moved are the first `x + 1` of either file, laid over the other. -/
theorem rplTransfersCopyRange : Obligations.RplTransfersCopyRange := by
  intro x s
  refine ⟨fun hle => ⟨⟨_, (execStoreRegistersRPL_eq s x).trans (if_pos hle), rfl, fun i hi => ?_⟩,
      ⟨_, (execLoadRegistersRPL_eq s x).trans (if_pos hle), rfl, fun i hi hix => ?_, fun i hi hxi => ?_⟩⟩,
    fun hgt => ⟨(execStoreRegistersRPL_eq s x).trans (if_neg (Nat.not_le.2 hgt)),
      (execLoadRegistersRPL_eq s x).trans (if_neg (Nat.not_le.2 hgt))⟩⟩
  · exact (getElem_overlay_take s.RPL s.V (x.toNat + 1) i hi (by omega)).trans (by simp only [Nat.lt_succ_iff])
  · exact (getElem_overlay_take s.V s.RPL (x.toNat + 1) i (by omega) hi).trans (if_pos (Nat.lt_succ_of_le hix))
  · exact getElem_overlay_of_length_le s.V hi ((List.length_take_le ..).trans hxi)

end Sys2Proof.Machine

/-! PROOFS. Family 44_timers_and_keys.md: the timer instructions, the key skips and KeyBlock (R210 to R215). What a skip
does on a bit of the key vector, and what KEY_RESOLVE does in AwaitingKey, are stated once each. -/

namespace Sys2Proof.Machine

section
variable {s : State} {r q : RegIx}

/-! ## Skips on a Boolean (R213, R214) -/

theorem State.skipIf_eq (s : State) (b : Bool) :
    s.skipIf b = { s with pc := s.pc + (if b then 4#16 else 2#16) } := by
  rw [← State.skipIf_decide, Bool.decide_eq_true]

theorem State.skipIf_not_eq (s : State) (b : Bool) :
    s.skipIf (!b) = { s with pc := s.pc + (if b then 2#16 else 4#16) } := by
  rw [← State.skipIf_decide_not, decide_not, Bool.decide_eq_true]

/-! ## The end of a KeyBlock (R275) -/

theorem zextKey_toNat (k : Nibble) : (zextKey k).toNat = k.toNat :=
  BitVec.toNat_setWidth_of_le (by decide)

theorem State.commandKeyResolve_of_awaitingKey (hrun : s.run = .awaitingKey r) (k : Nibble) :
    s.commandKeyResolve k = { s with run := .running }.setReg r (zextKey k) := by
  rw [State.commandKeyResolve, hrun]

theorem State.reg_commandKeyResolve (hrun : s.run = .awaitingKey r) (k : Nibble) :
    (s.commandKeyResolve k).reg q = if q = r then zextKey k else s.reg q := by
  rw [State.commandKeyResolve_of_awaitingKey hrun, State.reg_setReg]; rfl

theorem transact_keyResolve_of_awaitingKey (hrun : s.run = .awaitingKey r) (k : Nibble) :
    ∃ t, transact (.keyResolve k) s = .next t ∧ t = { s with V := t.V, run := .running } ∧
      (t.reg r).toNat = k.toNat ∧ ∀ q, q ≠ r → t.reg q = s.reg q := by
  refine ⟨s.commandKeyResolve k, rfl, ?_, ?_, fun q hq => ?_⟩
  · rw [State.commandKeyResolve_of_awaitingKey hrun]; rfl
  · rw [State.reg_commandKeyResolve hrun, if_pos rfl, zextKey_toNat]
  · rw [State.reg_commandKeyResolve hrun, if_neg hq]

end

/-- Settles O43. -/
theorem timerInstructionsCopy : Obligations.TimerInstructionsCopy := fun _ _ =>
  ⟨⟨_, rfl, rfl, State.reg_advance_setReg_self, fun _ => State.reg_advance_setReg_of_ne⟩, rfl, rfl⟩

/-- Settles O44: an index in range is a skip on its key's bit or on the opposite bit, and one above 15 is the fault. -/
theorem keySkipsTestTheNamedKey : Obligations.KeySkipsTestTheNamedKey := by
  intro x s
  have hkey := execSkipIfKey_eq s x
  have hnot := execSkipIfNotKey_eq s x
  constructor
  · intro hle
    rw [if_pos hle, State.skipIf_eq] at hkey
    rw [if_pos hle, State.skipIf_not_eq] at hnot
    exact ⟨hkey, hnot⟩
  · intro hgt
    rw [if_neg (Nat.not_le.2 hgt)] at hkey hnot
    exact ⟨hkey, hnot⟩

/-- Settles O45: the suspended state is not Running, so a STEP is ignored, the host's writes touch neither `run` nor a
register, and KEY_RESOLVE finds the register `x` recorded. -/
theorem keyBlockSuspendsUntilResolve : Obligations.KeyBlockSuspendsUntilResolve := by
  intro x s
  refine ⟨{ s with run := .awaitingKey x, pc := s.pc + 2#16 }, rfl, rfl,
    fun r => stepIgnoredUnlessRunning _ r nofun, ?_, transact_keyResolve_of_awaitingKey rfl⟩
  rintro c (rfl | rfl | ⟨v, rfl⟩ | ⟨a, b, rfl⟩ | ⟨b, rfl⟩ | ⟨b, rfl⟩) <;> exact ⟨_, rfl, rfl, rfl⟩

end Sys2Proof.Machine

/-! PROOFS. Family 45_display.md: the sprites, the scrolls, ClearScreen and the mode instructions (R230 to R248). What
both sprite instructions do to the grid, the flag and the rest of the state is one predicate, `State.DrawsOver`, which
the drawing operation meets for the cells its sprite covers. -/

namespace Sys2Proof.Machine

section
variable {s t : State} {x y : RegIx} {i : Instr} {covers : Nat → Nat → Prop}

/-! ## The pixels of a sprite in RAM (R234, R236, R240) -/

theorem State.litPixel_smallRows_spriteBytes (s : State) (n r c : Nat) :
    LitPixel (smallRows (s.spriteBytes n)) r c ↔ r < n ∧ c < 8 ∧ s.spriteBit r c = true := by
  rw [litPixel_smallRows, State.spriteBytes_getElem?]
  by_cases hr : r < n
  · simp [hr, State.spriteBit, State.ea]
  · simp [hr]

/-- The byte of pixel `(r, c)` lies among the sprite's 32 exactly when `r` is a row of the sprite. -/
theorem State.litPixel_largeRows_spriteBytes (s : State) (r c : Nat) :
    LitPixel (largeRows (s.spriteBytes 32)) r c ↔ r < 16 ∧ c < 16 ∧ s.largeSpriteBit r c = true := by
  rw [litPixel_largeRows (n := 16) (State.length_spriteBytes s 32), State.spriteBytes_getElem?]
  by_cases hc : c < 16
  · have hbyte : 2 * r + c / 8 < 32 ↔ r < 16 := by omega
    by_cases hr : r < 16
    · simp [hc, hr, hbyte, State.largeSpriteBit, State.ea]
    · simp [hr, hbyte]
  · simp [hc]

/-! ## The cells a sprite covers (R230 to R233) -/

/-- On the grid the blitter's clipping drops nothing: the logical pixel of a cell of the grid lies on the screen. -/
theorem Screen.mem_spriteCells_iff_spriteCovers {m : Screen} (hm : m = Screen.high ∨ m = Screen.low)
    {rows : List (List Bool)} {bit : Nat → Nat → Bool} {height width : Nat}
    (hlit : ∀ r c, LitPixel rows r c ↔ r < height ∧ c < width ∧ bit r c = true) (x0 y0 : Nat) {gx gy : Nat}
    (hx : gx < 128) (hy : gy < 64) :
    (gx, gy) ∈ m.spriteCells rows x0 y0 ↔ SpriteCovers m.S bit height width x0 y0 gx gy := by
  have hS : 0 < m.S := by rcases hm with rfl | rfl <;> decide
  have hW : gx / m.S < m.W := by rcases hm with rfl | rfl <;> simp only [Screen.high, Screen.low] <;> omega
  have hH : gy / m.S < m.H := by rcases hm with rfl | rfl <;> simp only [Screen.high, Screen.low] <;> omega
  rw [Screen.mem_spriteCells hS]
  constructor
  · rintro ⟨r, c, hpixel, -, -, hcol, hrow⟩
    obtain ⟨hr, hc, hbit⟩ := (hlit r c).1 hpixel
    exact ⟨r, c, hr, hc, hbit, hcol, hrow⟩
  · rintro ⟨r, c, hr, hc, hbit, hcol, hrow⟩
    exact ⟨r, c, (hlit r c).2 ⟨hr, hc, hbit⟩, hcol ▸ hW, hrow ▸ hH, hcol, hrow⟩

/-- The cells Draw covers, in the terms of the active screen (R230). -/
theorem State.drawCovers_iff (s : State) (x y : RegIx) (n : Nibble) (gx gy : Nat) :
    s.drawCovers x y n gx gy ↔ SpriteCovers s.screen.S s.spriteBit n.toNat 8
      ((s.reg x).toNat % s.screen.W) ((s.reg y).toNat % s.screen.H) gx gy := by
  unfold State.drawCovers State.screen
  cases s.hires <;> rfl

/-! ## Drawing over a set of cells (R235, R236) -/

/-- From `s` to `t` a sprite that covers the cells `covers` is drawn: those cells of the grid are flipped, V[15] tells
whether one of them was lit, the pc moves on, and nothing else changes. -/
structure State.DrawsOver (s t : State) (covers : Nat → Nat → Prop) : Prop where
  frame : t = { s with disp := t.disp, V := t.V, pc := s.pc + 2#16 }
  cell_iff : ∀ gx gy, gx < 128 → gy < 64 → (t.disp.cell gx gy = true ↔
    (s.disp.cell gx gy = true ∧ ¬ covers gx gy) ∨ (s.disp.cell gx gy = false ∧ covers gx gy))
  flag_set : (∃ gx gy, gx < 128 ∧ gy < 64 ∧ covers gx gy ∧ s.disp.cell gx gy = true) → t.reg 0xF#4 = 0x01#8
  flag_clear : (¬ ∃ gx gy, gx < 128 ∧ gy < 64 ∧ covers gx gy ∧ s.disp.cell gx gy = true) → t.reg 0xF#4 = 0x00#8
  reg_eq : ∀ r, r ≠ 0xF#4 → t.reg r = s.reg r

/-- The drawing operation draws over the cells of its sprite. -/
theorem State.drawsOver_drawSprite (s : State) {m : Screen} (hm : m = Screen.high ∨ m = Screen.low)
    {rows : List (List Bool)} {vx vy : Byte}
    (hcells : ∀ gx gy, gx < 128 → gy < 64 →
      ((gx, gy) ∈ m.spriteCells rows (vx.toNat % m.W) (vy.toNat % m.H) ↔ covers gx gy)) :
    s.DrawsOver (s.drawSprite m rows vx vy).advance covers := by
  obtain ⟨hcell, hflag, hreg, -⟩ := State.drawSprite_spec s hm rows vx vy
  have hcollision : (∃ c ∈ m.spriteCells rows (vx.toNat % m.W) (vy.toNat % m.H), s.disp.cell c.1 c.2 = true) ↔
      ∃ gx gy, gx < 128 ∧ gy < 64 ∧ covers gx gy ∧ s.disp.cell gx gy = true := by
    constructor
    · rintro ⟨⟨gx, gy⟩, hmem, hlit⟩
      obtain ⟨hx, hy⟩ := Screen.onGrid_spriteCells hm _ _ _ _ hmem
      exact ⟨gx, gy, hx, hy, (hcells gx gy hx hy).1 hmem, hlit⟩
    · rintro ⟨gx, gy, hx, hy, hcov, hlit⟩
      exact ⟨(gx, gy), (hcells gx gy hx hy).2 hcov, hlit⟩
  refine ⟨rfl, fun gx gy hx hy => ?_, fun h => ?_, fun h => ?_, hreg⟩
  · rw [State.advance_disp, hcell]
    by_cases hcov : covers gx gy <;> simp [hcells gx gy hx hy, hcov]
  · exact hflag.trans (by rw [decide_eq_true (hcollision.2 h)]; rfl)
  · exact hflag.trans (by rw [decide_eq_false (mt hcollision.1 h)]; rfl)

/-- The bytes of a Draw end in RAM exactly when the last of them lies there (D18). -/
theorem State.ea_le_iff_last (s : State) {n : Nibble} (hn : n ≠ 0x0#4) :
    s.ea n.toNat ≤ 0x1000 ↔ s.ea (n.toNat - 1) ≤ 0xFFF := by
  have hpos : n.toNat ≠ 0 := fun h => hn (BitVec.eq_of_toNat_eq h)
  simp only [State.ea]
  omega

/-- Draw with its bytes in RAM. -/
theorem exec_draw_drawsOver {n : Nibble} (hn : n ≠ 0x0#4) (hle : s.ea (n.toNat - 1) ≤ 0xFFF) :
    ∃ t, exec (.draw x y n) s = .next t ∧ s.DrawsOver t (s.drawCovers x y n) := by
  refine ⟨_, (execDraw_eq s x y hn).trans (if_pos ((s.ea_le_iff_last hn).2 hle)),
    State.drawsOver_drawSprite s s.screen_cases fun gx gy hx hy => ?_⟩
  rw [State.drawCovers_iff]
  exact Screen.mem_spriteCells_iff_spriteCovers s.screen_cases (s.litPixel_smallRows_spriteBytes _) _ _ hx hy

/-- DrawLarge in High mode with its 32 bytes in RAM. -/
theorem exec_drawLarge_drawsOver (hmode : s.hires = true) (hle : s.ea 31 ≤ 0xFFF) :
    ∃ t, exec (.drawLarge x y) s = .next t ∧ s.DrawsOver t (s.drawLargeCovers x y) :=
  ⟨_, (execDrawLarge_eq s x y).trans ((if_pos hmode).trans (if_pos hle)),
    State.drawsOver_drawSprite s (.inl rfl) fun _ _ =>
      Screen.mem_spriteCells_iff_spriteCovers (.inl rfl) s.litPixel_largeRows_spriteBytes _ _⟩

/-! ## Drawing twice (R235) -/

/-- `t` holds what a sprite instruction with coordinates `V[x]` and `V[y]` reads, but the grid, as `s` does. -/
structure State.SameSprite (s t : State) (x y : RegIx) : Prop where
  mem : t.mem = s.mem
  I : t.I = s.I
  hires : t.hires = s.hires
  reg_x : t.reg x = s.reg x
  reg_y : t.reg y = s.reg y

theorem State.SameSprite.ea_eq (h : s.SameSprite t x y) (k : Nat) : t.ea k = s.ea k := by
  rw [State.ea, h.I, State.ea]

theorem State.SameSprite.byteAt_eq (h : s.SameSprite t x y) (a : Nat) : t.byteAt a = s.byteAt a :=
  congrArg (Memory.read · a) h.mem

theorem State.SameSprite.drawCovers_eq (h : s.SameSprite t x y) (n : Nibble) :
    t.drawCovers x y n = s.drawCovers x y n := by
  have hbit : t.spriteBit = s.spriteBit := by
    funext r c; rw [State.spriteBit, h.byteAt_eq, h.I, State.spriteBit]
  unfold State.drawCovers
  rw [hbit, h.hires, h.reg_x, h.reg_y]

theorem State.SameSprite.drawLargeCovers_eq (h : s.SameSprite t x y) :
    t.drawLargeCovers x y = s.drawLargeCovers x y := by
  have hbit : t.largeSpriteBit = s.largeSpriteBit := by
    funext r c; rw [State.largeSpriteBit, h.byteAt_eq, h.I, State.largeSpriteBit]
  unfold State.drawLargeCovers
  rw [hbit, h.reg_x, h.reg_y]

/-- A sprite instruction that can draw from `s` draws over the same cells from every state with the same sprite. -/
theorem exists_drawsOver_of_sameSprite
    (h : (∃ n, i = .draw x y n ∧ n ≠ 0x0#4 ∧ s.ea (n.toNat - 1) ≤ 0xFFF) ∨
      (i = .drawLarge x y ∧ s.hires = true ∧ s.ea 31 ≤ 0xFFF)) :
    ∃ covers, ∀ t, s.SameSprite t x y → ∃ u, exec i t = .next u ∧ t.DrawsOver u covers := by
  obtain ⟨n, rfl, hn, hle⟩ | ⟨rfl, hmode, hle⟩ := h
  · refine ⟨s.drawCovers x y n, fun t hst => ?_⟩
    rw [← hst.drawCovers_eq n]
    exact exec_draw_drawsOver hn ((hst.ea_eq _).trans_le hle)
  · refine ⟨s.drawLargeCovers x y, fun t hst => ?_⟩
    rw [← hst.drawLargeCovers_eq]
    exact exec_drawLarge_drawsOver (hst.hires.trans hmode) ((hst.ea_eq _).trans_le hle)

/-- Drawing moves neither the sprite nor, when the registers that name the origin are kept, the origin. -/
theorem State.DrawsOver.sameSprite (h : s.DrawsOver t covers) {V : Vector Byte 16}
    (hx : State.reg { t with V := V } x = s.reg x) (hy : State.reg { t with V := V } y = s.reg y) :
    s.SameSprite { t with V := V } x y :=
  ⟨(congrArg State.mem h.frame :), (congrArg State.I h.frame :), (congrArg State.hires h.frame :), hx, hy⟩

/-- Two flips of a cell are none. -/
theorem State.DrawsOver.disp_eq_of_twice {t' u : State} (h : s.DrawsOver t covers) (h' : t'.DrawsOver u covers)
    (hdisp : t'.disp = t.disp) : u.disp = s.disp := by
  refine Grid.ext_cell fun gx gy hx hy => ?_
  have hfirst := h.cell_iff gx gy hx hy
  have hsecond := h'.cell_iff gx gy hx hy
  rw [hdisp] at hsecond
  by_cases hcov : covers gx gy
  · simp only [hcov, not_true_eq_false, and_false, and_true, false_or] at hfirst hsecond
    rw [Bool.eq_iff_iff, hsecond, ← Bool.not_eq_true, hfirst, Bool.not_eq_false]
  · simp only [hcov, not_false_eq_true, and_false, and_true, or_false] at hfirst hsecond
    rw [Bool.eq_iff_iff, hsecond, hfirst]

theorem State.DrawsOver.flag_eq_one_iff (h : s.DrawsOver t covers) :
    t.reg 0xF#4 = 0x01#8 ↔ ∃ gx gy, gx < 128 ∧ gy < 64 ∧ covers gx gy ∧ s.disp.cell gx gy = true := by
  refine ⟨fun hflag => ?_, h.flag_set⟩
  by_contra hnone
  exact absurd ((h.flag_clear hnone).symm.trans hflag) (by decide)

/-- On a blank grid the first draw lights exactly the covered cells, so the second collides when there is one. -/
theorem State.DrawsOver.flag_twice_of_blank {t' u : State} (h : s.DrawsOver t covers) (h' : t'.DrawsOver u covers)
    (hdisp : t'.disp = t.disp) (hblank : s.disp = Grid.blank) :
    u.reg 0xF#4 = 0x01#8 ↔ t.disp ≠ Grid.blank := by
  have hlit {gx gy : Nat} (hx : gx < 128) (hy : gy < 64) : t.disp.cell gx gy = true ↔ covers gx gy := by
    rw [h.cell_iff gx gy hx hy, hblank]; simp
  rw [h'.flag_eq_one_iff, hdisp, Grid.ne_iff_cell_ne]
  constructor
  · rintro ⟨gx, gy, hx, hy, -, hcell⟩
    exact ⟨gx, gy, hx, hy, by rw [hcell, Grid.cell_blank]; decide⟩
  · rintro ⟨gx, gy, hx, hy, hne⟩
    have hcell : t.disp.cell gx gy = true := by simpa using hne
    exact ⟨gx, gy, hx, hy, (hlit hx hy).1 hcell, hcell⟩

/-! ## Scrolls (R238, R243 to R245) -/

theorem exec_scrollRight_of_high (h : s.hires = true) :
    exec .scrollRight s = .next { s with disp := s.disp.scrollRight 4, pc := s.npc } :=
  (execScrollRight_eq s).trans (if_pos h)

theorem exec_scrollLeft_of_high (h : s.hires = true) :
    exec .scrollLeft s = .next { s with disp := s.disp.scrollLeft 4, pc := s.npc } :=
  (execScrollLeft_eq s).trans (if_pos h)

theorem exec_scrollDown_of_high (n : Nibble) (h : s.hires = true) :
    exec (.scrollDown n) s = .next { s with disp := s.disp.scrollDown n.toNat, pc := s.npc } :=
  (execScrollDown_eq s n).trans (if_pos h)

/-- Four columns to the left, with the bound as R244 states it. -/
theorem Grid.cell_scrollLeft_four (d : Grid) {gx gy : Nat} (hy : gy < 64) :
    (d.scrollLeft 4).cell gx gy = if gx ≤ 123 then d.cell (gx + 4) gy else false := by
  have hbound : gx + 4 < 128 ↔ gx ≤ 123 := by omega
  simp only [Grid.cell_scrollLeft d 4 hy, hbound]

end

/-- Settles O46. -/
theorem drawFlipsCoveredCells : Obligations.DrawFlipsCoveredCells := by
  intro x y n s hn
  constructor
  · intro hle
    obtain ⟨t, hexec, ht⟩ := exec_draw_drawsOver hn hle
    exact ⟨t, hexec, ht.frame, ht.cell_iff, ht.flag_set, ht.flag_clear, ht.reg_eq⟩
  · intro hgt
    exact (execDraw_eq s x y hn).trans (if_neg (mt (s.ea_le_iff_last hn).1 (Nat.not_le.2 hgt)))

/-- Settles O47: the mode check comes before the range check. -/
theorem drawLargeFlipsCoveredCells : Obligations.DrawLargeFlipsCoveredCells := by
  intro x y s
  refine ⟨fun hmode hle => ?_, fun hlow => ?_, fun hmode hgt => ?_⟩
  · obtain ⟨t, hexec, ht⟩ := exec_drawLarge_drawsOver hmode hle
    exact ⟨t, hexec, ht.frame, ht.cell_iff, ht.flag_set, ht.flag_clear, ht.reg_eq⟩
  · exact (execDrawLarge_eq s x y).trans (if_neg (by rw [hlow]; nofun))
  · exact (execDrawLarge_eq s x y).trans ((if_pos hmode).trans (if_neg (Nat.not_le.2 hgt)))

/-- Settles O48: the second draw covers the cells of the first, because the first changes nothing the sprite is read
from, and its origin only through the flag register. -/
theorem drawTwiceRestoresGrid : Obligations.DrawTwiceRestoresGrid := by
  intro x y s i h
  obtain ⟨covers, hdraw⟩ := exists_drawsOver_of_sameSprite h
  obtain ⟨t, hexec, ht⟩ := hdraw s ⟨rfl, rfl, rfl, rfl, rfl⟩
  refine ⟨t, hexec, ?_, fun hx hy => ?_⟩
  · obtain ⟨u, hexec', hu⟩ := hdraw _ (ht.sameSprite (V := s.V) rfl rfl)
    exact ⟨u, hexec', ht.disp_eq_of_twice hu rfl, ht.flag_twice_of_blank hu rfl⟩
  · obtain ⟨u, hexec', hu⟩ := hdraw t (ht.sameSprite (ht.reg_eq x hx) (ht.reg_eq y hy))
    exact ⟨u, hexec', ht.disp_eq_of_twice hu rfl⟩

/-- Settles O49. -/
theorem scrollsMoveEveryCell : Obligations.ScrollsMoveEveryCell := by
  intro n s
  constructor
  · intro hmode
    exact ⟨⟨_, exec_scrollRight_of_high hmode, rfl, fun _ _ => Grid.cell_scrollRight s.disp 4⟩,
      ⟨_, exec_scrollLeft_of_high hmode, rfl, fun _ _ _ => Grid.cell_scrollLeft_four s.disp⟩,
      ⟨_, exec_scrollDown_of_high n hmode, rfl, fun _ _ _ => Grid.cell_scrollDown s.disp n.toNat⟩⟩
  · intro hlow
    have hne : ¬ s.hires = true := by rw [hlow]; nofun
    exact ⟨(execScrollRight_eq s).trans (if_neg hne), (execScrollLeft_eq s).trans (if_neg hne),
      (execScrollDown_eq s n).trans (if_neg hne)⟩

/-- Settles O50: the left scroll reads back the columns the right scroll moved, and finds columns 124 to 127 gone. -/
theorem scrollRightThenLeftLosesFourColumns : Obligations.ScrollRightThenLeftLosesFourColumns := by
  intro s hmode
  refine ⟨_, _, exec_scrollRight_of_high hmode, exec_scrollLeft_of_high hmode, fun gx gy _ hy => ?_⟩
  refine (Grid.cell_scrollLeft _ 4 hy).trans ?_
  by_cases hlt : gx < 124
  · have hin : gx + 4 < 128 := by omega
    rw [if_pos hin, if_pos hlt, Grid.cell_scrollRight _ _ hin hy, if_pos (Nat.le_add_left 4 gx), Nat.add_sub_cancel]
  · have hout : ¬ gx + 4 < 128 := by omega
    rw [if_neg hout, if_neg hlt]

/-- Settles O51. -/
theorem clearScreenAndModeInstructions : Obligations.ClearScreenAndModeInstructions := fun _ =>
  ⟨⟨_, rfl, rfl, fun _ _ _ _ => Grid.cell_blank _ _⟩, rfl, rfl⟩

end Sys2Proof.Machine

/-! PROOFS. Family 46_host_commands.md: the command encoding, what each command of the host writes, and the outputs
(R270 to R281). Each of these has lemmas of its own: the unassigned codes, a timer under TICK, KEY_RESOLVE outside
AwaitingKey, and the four outputs that read the run state. -/

namespace Sys2Proof.Machine

section
variable {p : Ports} {s : State} {cmd : Command}

/-! ## The command encoding (R271, R278) -/

theorem Ports.command_of_unassigned (h : 9 ≤ p.cmd.toNat) : p.command = .idle := by
  have hne : ∀ {c : BitVec 4}, c.toNat < 9 → p.cmd ≠ c := fun hc he => Nat.not_lt.2 h (he ▸ hc)
  unfold Ports.command
  split
  case h_1 => rfl
  case h_10 => rfl
  all_goals exact absurd ‹p.cmd = _› (hne (by decide))

/-! ## The command of a step (R271; logs 4, 5, 7) -/

theorem step_runs_command {u : State} (hcmd : s.nextCommand = cmd) (hu : s.dequeue = u) :
    ∃ t, transact cmd u = .next t ∧ step s = .next { t with dispChanged := cmd.dispChanged s t } := by
  subst hcmd hu
  obtain ⟨t, ht⟩ := transact_answers_next s.nextCommand s.dequeue
  exact ⟨t, ht, runNext_next.2 ⟨t, ht, rfl⟩⟩

/-! ## TICK, KEY_RESOLVE and RESET (R274, R275, R272) -/

theorem tickTimer_toNat (b : Byte) : (tickTimer b).toNat = b.toNat - 1 := by
  unfold tickTimer
  split
  case isTrue hzero => rw [hzero]; rfl
  case isFalse hne => bv_omega

theorem State.commandKeyResolve_of_ne_awaitingKey (hrun : ∀ r, s.run ≠ .awaitingKey r) (k : Nibble) :
    s.commandKeyResolve k = s := by
  unfold State.commandKeyResolve
  split
  case h_1 r hr => exact absurd hr (hrun r)
  case h_2 => rfl
  case h_3 => rfl

theorem State.reg_afterReset (depth : Nat) (m : Memory) (rpl : Vector Byte 8) (r : RegIx) :
    (State.afterReset depth m rpl).reg r = 0x00#8 :=
  Vector.getElem_replicate r.isLt

/-! ## The outputs that read the run state (R270, R281, R291) -/

theorem RunState.awaitingBit_eq_true_iff (q : RunState) : q.awaitingBit = true ↔ ∃ r, q = .awaitingKey r := by
  cases q <;> simp [RunState.awaitingBit]

theorem RunState.haltedBit_eq_true_iff (q : RunState) : q.haltedBit = true ↔ ∃ c, q = .halted c := by
  cases q <;> simp [RunState.haltedBit]

theorem RunState.awaitReg_of_ne {q : RunState} (h : ∀ r, q ≠ .awaitingKey r) : q.awaitReg = 0#4 := by
  cases q with
  | awaitingKey r => exact absurd rfl (h r)
  | _ => rfl

theorem RunState.faultNumber_of_ne {q : RunState} (h : ∀ c, q ≠ .halted c) : q.faultNumber = 0#3 := by
  cases q with
  | halted c => exact absurd rfl (h c)
  | _ => rfl

theorem State.outputs_awaitReg_of_awaitingKey {r : RegIx} (h : s.run = .awaitingKey r) (dx : BitVec 7) (dy : BitVec 6) :
    (s.outputs dx dy).awaitReg = r :=
  congrArg RunState.awaitReg h

theorem State.outputs_faultCode_of_halted {c : FaultCode} (h : s.run = .halted c) (dx : BitVec 7) (dy : BitVec 6) :
    (s.outputs dx dy).faultCode = c.number :=
  congrArg RunState.faultNumber h

end

/-- Settles O52: an assigned code is read off the table, any other is IDLE, and a step runs the command that is next on
the state from which it was taken. -/
theorem commandsDecodeAndRunInOrder : Obligations.CommandsDecodeAndRunInOrder := by
  constructor
  · intro p
    have hcode {c : BitVec 4} (h : p.cmd = c) : p.command = { p with cmd := c }.command := by rw [← h]
    refine ⟨hcode, hcode, hcode, hcode, hcode, hcode, hcode, hcode, ?_⟩
    rintro (hidle | hge)
    · exact hcode hidle
    · exact Ports.command_of_unassigned hge
  · intro s
    constructor
    · intro c rest hcons
      exact step_runs_command (State.nextCommand_cons hcons) (State.dequeue_cons hcons)
    · intro hnil
      exact step_runs_command (State.nextCommand_nil hnil) (State.dequeue_nil hnil)

/-- Settles O53. -/
theorem tickDecrementsTimers : Obligations.TickDecrementsTimers := fun s =>
  ⟨s.commandTick, rfl, rfl, tickTimer_toNat s.DT, tickTimer_toNat s.ST⟩

/-- Settles O54. -/
theorem keyResolveWritesAwaitedRegister : Obligations.KeyResolveWritesAwaitedRegister := fun _ k =>
  ⟨fun _ hrun => transact_keyResolve_of_awaitingKey hrun k,
    fun hrun => congrArg Host.Outcome.next (State.commandKeyResolve_of_ne_awaitingKey hrun k)⟩

/-- Settles O55: LOAD writes the canonical memory at its own address, and each other command is its field's update. -/
theorem hostWritesTouchOneThing : Obligations.HostWritesTouchOneThing := fun s _ b a hmem =>
  ⟨rfl, rfl, rfl, rfl, s.commandLoad a b, rfl, rfl, fun q => Memory.read_write hmem a.toNat q b⟩

/-- Settles O56. -/
theorem resetCommandSetsResetValues : Obligations.ResetCommandSetsResetValues := fun s =>
  ⟨s.commandReset, rfl, rfl, State.reg_afterReset s.stackDepth s.mem s.RPL, rfl, rfl, rfl, rfl,
    fun gx gy _ _ => Grid.cell_blank gx gy, rfl, fun _ _ => BitVec.getLsbD_zero, rfl, rfl, rfl, rfl, rfl, rfl, rfl, rfl⟩

/-- Settles O58: every output is a field or reads the run state, and `fault_code` is the number of the cause. -/
theorem outputsShowTheState : Obligations.OutputsShowTheState := by
  intro s dx dy
  have hfault {c : FaultCode} (h : s.run = .halted c) := State.outputs_faultCode_of_halted h dx dy
  exact ⟨rfl, rfl, rfl, rfl,
    RunState.awaitingBit_eq_true_iff s.run,
    fun _ h => State.outputs_awaitReg_of_awaitingKey h dx dy, RunState.awaitReg_of_ne,
    RunState.haltedBit_eq_true_iff s.run, RunState.faultNumber_of_ne,
    hfault, hfault, hfault, hfault, hfault, hfault, hfault⟩

end Sys2Proof.Machine

/-! PROOFS. Family 60_exceptions.md: a fault changes `run` alone and is the one of the fault table (R291 to R296), and
outside Running a step that neither resets nor resumes the machine writes what its host command writes (R297, R304). -/

namespace Sys2Proof.Machine

section
variable {i : Instr} {cmd : Command} {s t u : State} {c : FaultCode}

/-! ## Which instructions fault (R291, R296) -/

/-- An instruction that executes does not halt: KeyBlock alone writes `run`, and it suspends (R215). -/
theorem run_ne_halted_of_frame (hrun : s.run = .running) (h : exec i s = .next t) (hframe : t = s.frame i t) :
    t.run ≠ .halted c := by
  have hrun' := congrArg State.run hframe
  cases i with
  | keyBlock x => cases h; exact nofun
  | _ => rw [hrun'.trans hrun]; exact nofun

theorem run_eq_halted_iff_faultCause (hrun : s.run = .running) (hsp : s.sp ≤ s.stackDepth) (h : exec i s = .next t) :
    t.run = .halted c ↔ faultCause i s = some c := by
  cases exec_cases h with
  | executes hnone hframe => simp [hnone, run_ne_halted_of_frame hrun h hframe]
  | faults d hsome ht => simp [hsome hsp, ht]

/-! ## Steps outside Running (R297, R304) -/

theorem tickTimer_succ_of_ne {b : Byte} (h : tickTimer b ≠ b) : (tickTimer b).toNat + 1 = b.toNat := by
  have hpred := tickTimer_toNat b
  have hne : (tickTimer b).toNat ≠ b.toNat := fun heq => h (BitVec.eq_of_toNat_eq heq)
  omega

/-- A command other than LOAD keeps RAM, so the timers and the key vector are left to account for. -/
theorem State.hostWritesOnly_of_mem_eq {DT ST rand : Byte} {keys : BitVec 16} {draws : Nat} {dc : Bool}
    (hload : ∀ a v, s.nextCommand ≠ .load a v)
    (hDT : DT ≠ s.DT → (s.nextCommand = .tick ∧ DT.toNat + 1 = s.DT.toNat) ∨ s.nextCommand = .setDT DT)
    (hST : ST ≠ s.ST → (s.nextCommand = .tick ∧ ST.toNat + 1 = s.ST.toNat) ∨ s.nextCommand = .setST ST)
    (hkeys : keys ≠ s.keys → s.nextCommand = .setKeys keys) :
    s.HostWritesOnly { s with DT := DT, ST := ST, keys := keys, host := s.host.tail, rand := rand, draws := draws,
                              dispChanged := dc } :=
  ⟨rfl, absurd rfl, fun _ a v hcmd => absurd hcmd (hload a v), hDT, hST, hkeys⟩

theorem State.hostWritesOnly_of_load {a : Addr12} {v : Byte} {draws : Nat} {dc : Bool}
    (hcmd : s.nextCommand = .load a v) :
    s.HostWritesOnly { s with mem := s.mem.write a.toNat v, host := s.host.tail, draws := draws, dispChanged := dc } := by
  refine ⟨rfl, fun _ => ⟨a, v, hcmd⟩, fun hwf a' v' hcmd' q => ?_, absurd rfl, absurd rfl, absurd rfl⟩
  cases hcmd.symm.trans hcmd'
  exact Memory.read_write hwf a.toNat q v

/-- Outside Running a STEP is ignored, as is a KEY_RESOLVE that no key-block waits for; the other commands but RESET
are host writes, and IDLE is none. -/
theorem State.hostWritesOnly_of_transact {draws : Nat} {dc : Bool} (hrun : s.run ≠ .running)
    (hcmd : s.nextCommand = cmd) (hreset : cmd ≠ .reset)
    (hresolve : ∀ k, cmd = .keyResolve k → ∀ r, s.run ≠ .awaitingKey r)
    (h : transact cmd { s with host := s.host.tail, draws := draws } = .next u) :
    s.HostWritesOnly { u with dispChanged := dc } := by
  cases cmd with
  | reset => exact absurd rfl hreset
  | load a v => cases h; exact State.hostWritesOnly_of_load hcmd
  | idle => cases h; exact State.hostWritesOnly_of_mem_eq (by simp [hcmd]) (absurd rfl) (absurd rfl) (absurd rfl)
  | step r =>
    have hignored := stepIgnoredUnlessRunning { s with host := s.host.tail, draws := draws } r hrun
    cases hignored.symm.trans h
    exact State.hostWritesOnly_of_mem_eq (by simp [hcmd]) (absurd rfl) (absurd rfl) (absurd rfl)
  | keyResolve k =>
    have hignored := State.commandKeyResolve_of_ne_awaitingKey
      (s := { s with host := s.host.tail, draws := draws }) (hresolve k rfl) k
    cases (congrArg Host.Outcome.next hignored).symm.trans h
    exact State.hostWritesOnly_of_mem_eq (by simp [hcmd]) (absurd rfl) (absurd rfl) (absurd rfl)
  | tick =>
    cases h
    exact State.hostWritesOnly_of_mem_eq (by simp [hcmd]) (fun hne => .inl ⟨hcmd, tickTimer_succ_of_ne hne⟩)
      (fun hne => .inl ⟨hcmd, tickTimer_succ_of_ne hne⟩) (absurd rfl)
  | setKeys keysIn =>
    cases h; exact State.hostWritesOnly_of_mem_eq (by simp [hcmd]) (absurd rfl) (absurd rfl) fun _ => hcmd
  | setDT v =>
    cases h; exact State.hostWritesOnly_of_mem_eq (by simp [hcmd]) (fun _ => .inr hcmd) (absurd rfl) (absurd rfl)
  | setST v =>
    cases h; exact State.hostWritesOnly_of_mem_eq (by simp [hcmd]) (absurd rfl) (fun _ => .inr hcmd) (absurd rfl)

theorem State.hostWritesOnly_of_step (hrun : s.run ≠ .running) (hreset : s.nextCommand ≠ .reset)
    (hresolve : ∀ k, s.nextCommand = .keyResolve k → ∀ r, s.run ≠ .awaitingKey r) (h : step s = .next t) :
    s.HostWritesOnly t := by
  obtain ⟨u, hu, rfl⟩ := runNext_next.1 h
  rw [State.dequeue_eq] at hu
  exact State.hostWritesOnly_of_transact hrun rfl hreset hresolve hu

end

/-- Settles O13: an instruction that executes does not halt, so one that ends Halted has taken its fault. -/
theorem faultChangesOnlyRun : Obligations.FaultChangesOnlyRun :=
  fun _ _ _ _ hrun h hhalted => eq_halted_of_exec hrun h hhalted

/-- Settles O14: a well-formed instruction answers a next state, and that state is Halted by the table's cause alone. -/
theorem faultsAreExactlyTheListedCauses : Obligations.FaultsAreExactlyTheListedCauses := by
  intro i s hi hrun hsp
  obtain ⟨t, ht⟩ := exec_answers_next hi s
  exact ⟨t, ht, fun _ => run_eq_halted_iff_faultCause hrun hsp ht⟩

/-- Settles O15: in Halted no key-block waits for a KEY_RESOLVE. -/
theorem haltedLeftOnlyByReset : Obligations.HaltedLeftOnlyByReset := by
  intro s t c hrun hreset h
  exact State.hostWritesOnly_of_step (by simp [hrun]) hreset (by simp [hrun]) h

/-- Settles O16: KEY_RESOLVE is excluded with RESET. -/
theorem keyBlockLeftOnlyByResolveOrReset : Obligations.KeyBlockLeftOnlyByResolveOrReset := by
  intro s t r hrun hreset hresolve h
  exact State.hostWritesOnly_of_step (by simp [hrun]) hreset (fun k hcmd => absurd hcmd (hresolve k)) h

end Sys2Proof.Machine
